-- ==== Sys2Proof/Word.lean ====
section
/-! DEFINITION. The data types of the CORE: words, bytes and groups of four words (spec/00_scope.md R3, R4). -/

namespace Sys2Proof

/-- A word of either engine: 32 bits, unsigned (`WORD_BITS`, R3, R4). -/
abbrev Word := BitVec 32

/-- A byte: 8 bits (R4). -/
abbrev Byte := BitVec 8

/-- Four words: the block registers `R0..R3`, a round subkey, a group of four raw words, the keystream
words `S0..S3` (R16, R62, R90, R116). -/
structure Quad where
  r0 : Word
  r1 : Word
  r2 : Word
  r3 : Word
deriving DecidableEq, Repr

/-- Element-wise XOR of two groups of four words: the key mixing of R90. -/
def Quad.xor (p q : Quad) : Quad :=
  ⟨p.r0 ^^^ q.r0, p.r1 ^^^ q.r1, p.r2 ^^^ q.r2, p.r3 ^^^ q.r3⟩

end Sys2Proof
end

