-- ==== Sys2Proof/Machine/Words.lean ====
section
/-! DEFINITION. Byte order, rotations and bit slices of words (spec/00_scope.md R4, spec/20_memory.md R31,
spec/40_constant_tables.md R62). -/

namespace Sys2Proof.Machine

/-- `rotl32(v, n)` of R4 for 0 <= n <= 31. At n = 0 the right shift by 32 gives 0, so the result is `v`. -/
def rotl32 (v : Word) (n : Nat) : Word := v <<< n ||| v >>> (32 - n)

/-- `rotr32(v, n) = rotl32(v, (32 - n) mod 32)` of R4. -/
def rotr32 (v : Word) (n : Nat) : Word := rotl32 v ((32 - n) % 32)

/-- `le32(b0, b1, b2, b3)` of R4: a word from four bytes, the first least significant. -/
def le32 (b0 b1 b2 b3 : Byte) : Word :=
  b0.setWidth 32 ||| b1.setWidth 32 <<< 8 ||| b2.setWidth 32 <<< 16 ||| b3.setWidth 32 <<< 24

/-- `bytes_le(w)` of R4: the four bytes of a word, least significant first. -/
def bytesLe (w : Word) : List Byte :=
  [w.extractLsb' 0 8, w.extractLsb' 8 8, w.extractLsb' 16 8, w.extractLsb' 24 8]

/-- A little-endian 16-bit word widened with zeros to 32 bits: the IV words `v_t` of R109. -/
def le16 (b0 b1 : Byte) : Word := b0.setWidth 32 ||| b1.setWidth 32 <<< 8

/-- Word `t` of a byte sequence, four bytes per word, little-endian (R31). -/
def wordOf (bs : List Byte) (t : Nat) : Word :=
  le32 (bs.getD (4 * t) 0) (bs.getD (4 * t + 1) 0) (bs.getD (4 * t + 2) 0) (bs.getD (4 * t + 3) 0)

/-- A 16-byte block as four words (R31 (a)). -/
def quadOfBytes (bs : List Byte) : Quad := ⟨wordOf bs 0, wordOf bs 1, wordOf bs 2, wordOf bs 3⟩

/-- Four words as 16 bytes (R31 (a), (b)). -/
def quadBytes (q : Quad) : List Byte := bytesLe q.r0 ++ bytesLe q.r1 ++ bytesLe q.r2 ++ bytesLe q.r3

/-- The 4-bit value at bit position `j` of four words, the first word giving bit 0 (R62). -/
def column (q : Quad) (j : Nat) : BitVec 4 :=
  BitVec.ofNat 4 ((q.r0.getLsbD j).toNat + 2 * (q.r1.getLsbD j).toNat + 4 * (q.r2.getLsbD j).toNat
    + 8 * (q.r3.getLsbD j).toNat)

/-- The sixteen 4-bit values. -/
def nibbles : List (BitVec 4) := [0, 1, 2, 3, 4, 5, 6, 7, 8, 9, 10, 11, 12, 13, 14, 15]

/-- A word, or its complement. -/
def polarity (b : Bool) (w : Word) : Word := if b then w else ~~~w

/-- The bit positions at which four words hold the 4-bit value `n` (bit `j` is set when `column q j = n`). -/
def columnsEqual (q : Quad) (n : BitVec 4) : Word :=
  polarity (n.getLsbD 0) q.r0 &&& polarity (n.getLsbD 1) q.r1 &&& polarity (n.getLsbD 2) q.r2 &&& polarity (n.getLsbD 3) q.r3

/-- Output word `i` of a function on 4-bit values applied at every bit position: the positions whose value `n` has
bit `i` of `f n` set. -/
def columnsWord (f : BitVec 4 → BitVec 4) (q : Quad) (i : Nat) : Word :=
  nibbles.foldl (fun acc n => if (f n).getLsbD i then acc ||| columnsEqual q n else acc) 0

/-- Apply a function on 4-bit values at each of the 32 bit positions, which are independent of each other (R62). It is
written on whole words, as R62 allows; `column_mapColumns` in Sys2Proof/Laws/Words.lean says that it is the rule's
bit-by-bit definition. -/
def mapColumns (f : BitVec 4 → BitVec 4) (q : Quad) : Quad :=
  ⟨columnsWord f q 0, columnsWord f q 1, columnsWord f q 2, columnsWord f q 3⟩

end Sys2Proof.Machine
end

