-- ==== Sys2Proof/Config.lean ====
section
/-! DEFINITION. The parameters of the CORE (spec/00_scope.md R3) as plain data, and the free values that stand
for what the spec leaves unspecified (spec/93_implementation_defined.md U1, U2). -/

namespace Sys2Proof

/-- `SC_CTR_MODE` (R3, R112): the direction of the counter update. -/
inductive CtrMode where
  | add
  | sub
deriving DecidableEq, Repr

/-- A word formula over `n` input words, built from the word operations of R4. The members of the formula set
`SCF` are such formulas: the spec makes `SCF` an argument of the model (R3), and as plain data it can stand in
the state. DESIGN CHOICE, log entry 2. -/
inductive WExpr (n : Nat) where
  /-- one of the input words -/
  | input (i : Fin n)
  /-- a constant word -/
  | const (w : Word)
  | xor (a b : WExpr n)
  | and (a b : WExpr n)
  | or (a b : WExpr n)
  | not (a : WExpr n)
  | add (a b : WExpr n)
  | sub (a b : WExpr n)
  /-- logical shift left by a constant -/
  | shl (k : Fin 32) (a : WExpr n)
  /-- logical shift right by a constant -/
  | shr (k : Fin 32) (a : WExpr n)
  /-- rotation left by a constant -/
  | rotl (k : Fin 32) (a : WExpr n)
deriving DecidableEq, Repr

/-- The formula set `SCF` (R3): the stream-cipher formulas that the source document does not give. -/
structure Scf where
  /-- `KEYMIX` (R107), the eight state words, over the key words `k0..k3` -/
  keyMixX : Vector (WExpr 4) 8
  /-- `KEYMIX` (R107), the eight counter words, over the key words `k0..k3` -/
  keyMixC : Vector (WExpr 4) 8
  /-- `IVMIX` (R109), the four mixing words, over the IV words `v_0..v_3` widened with zeros -/
  ivMix : Vector (WExpr 4) 4
  /-- `IVMIX` (R109, 93 G6), which mixing word goes to which counter: DEDUCED, log entry 14 -/
  ivLane : Vector (Fin 4) 8
  /-- `A[0..7]` (R67), the lane constants -/
  laneA : Vector Word 8
  /-- `GMIX` (R114), the eight state words, over `G[0..7]` -/
  gMix : Vector (WExpr 8) 8
  /-- `KSMIX` (R116), the four keystream words, over `X[0..7]` -/
  ksMix : Vector (WExpr 8) 4
deriving DecidableEq, Repr

/-- The open parameters of the CORE (R3, 92 "Summary of the OPEN parameters"). No step changes them. -/
structure Config where
  /-- `DMEM_BYTES`, the size of the data memory -/
  dmemBytes : Nat
  /-- `SC_CTR_MODE` -/
  ctrMode : CtrMode
  /-- `SCF` -/
  scf : Scf
deriving DecidableEq, Repr

/-- The range that R3 gives `DMEM_BYTES`: 1 .. 2^32. -/
def Config.wf (c : Config) : Bool := decide (1 ≤ c.dmemBytes) && decide (c.dmemBytes ≤ 2 ^ 32)

/-- FREE VALUE (U1): word `i` of a register file that draw number `d` left unspecified. Log entry 6. -/
opaque Config.freeWord (d i : Nat) : Word

/-- FREE VALUE (U1): byte `i` of the keystream buffer that draw number `d` left unspecified. Log entry 6. -/
opaque Config.freeByte (d i : Nat) : Byte

/-- FREE VALUE (U1): the carry bit that draw number `d` left unspecified. Log entry 6. -/
opaque Config.freeBit (d : Nat) : Bool

/-- FREE VALUE (U1): the keystream position that draw number `d` left unspecified; it "stays within 0..16"
(R128, R185). Log entry 6. -/
opaque Config.freePos (d : Nat) : Fin 17

/-- FREE VALUE (R185, U2): the bytes that a power-on leaves in the data memory. Log entry 11. -/
opaque Config.freeDmem (d : Nat) : List (Nat × Byte)

end Sys2Proof
end

