-- ==== Sys2Proof/Syntax.lean ====
section
/-! DEFINITION. The commands of the CORE (spec/30_encoding.md R45, R47, R48): the five-word descriptor and the seven
commands with the operands each uses. -/

namespace Sys2Proof

/-- The one command format `CMD5` (R45): five 32-bit words. -/
structure Cmd5 where
  /-- `OP` in bits [7:0], `RSV` in bits [31:8] -/
  w0 : Word
  /-- `A` -/
  w1 : Word
  /-- `ALEN` -/
  w2 : Word
  /-- `B` -/
  w3 : Word
  /-- `BLEN` -/
  w4 : Word
deriving DecidableEq, Repr

/-- A command with the operands it uses (R48), one constructor per row of spec/opcode_table.json. Operands are
"unsigned integers used as they stand" (R45); `Instr.wellFormed` says that each fits its 32-bit field. -/
inductive Instr where
  /-- `BC.KEY a, alen` (R80) -/
  | bcKey (a alen : Nat)
  /-- `BC.ENC a, b` (R92) -/
  | bcEnc (a b : Nat)
  /-- `BC.DEC a, b` (R93) -/
  | bcDec (a b : Nat)
  /-- `BC.CLR` (R94) -/
  | bcClr
  /-- `SC.INIT a, alen, b, blen` (R105) -/
  | scInit (a alen b blen : Nat)
  /-- `SC.XOR a, alen, b, blen` (R125) -/
  | scXor (a alen b blen : Nat)
  /-- `SC.CLR` (R128) -/
  | scClr
deriving DecidableEq, Repr

end Sys2Proof
end

