-- ==== Sys2Proof/WellFormed.lean ====
section
/-! DEFINITION. Which command terms stand for a descriptor: every operand fits its 32-bit field (spec/00_scope.md R3
`ADDR_BITS`, spec/30_encoding.md R45). An illegal key or IV length is well formed: it is "the error DOC names for it,
not IllegalCommand" (R48). -/

namespace Sys2Proof

/-- An operand that a 32-bit field can hold (`ADDR_BITS` = 32, R3). -/
def operandFits (v : Nat) : Bool := decide (v < 2 ^ 32)

/-- Every operand of the command fits its field. -/
def Instr.wellFormed : Instr → Bool
  | .bcKey a alen => operandFits a && operandFits alen
  | .bcEnc a b => operandFits a && operandFits b
  | .bcDec a b => operandFits a && operandFits b
  | .bcClr => true
  | .scInit a alen b blen => operandFits a && operandFits alen && operandFits b && operandFits blen
  | .scXor a alen b blen => operandFits a && operandFits alen && operandFits b && operandFits blen
  | .scClr => true

end Sys2Proof
end

