-- ==== Sys2Proof/Decode.lean ====
section
/-! DEFINITION. The decoder and the encoder of the command format `CMD5` (spec/30_encoding.md R45 to R50). -/

namespace Sys2Proof

/-- Why a descriptor is no command (R49); the byte form adds its length (R46). The machine answers each of them with
`Fail(IllegalCommand)`. -/
inductive Illegal where
  /-- `OP` is none of the seven opcodes of R47 -/
  | unknownOpcode
  /-- `RSV` is not 0 -/
  | reservedNotZero
  /-- a field that R48 marks "0" is not 0 -/
  | operandNotZero
  /-- the byte form does not have 20 bytes -/
  | wrongLength
deriving DecidableEq, Repr

/-- `OP`, bits [7:0] of `W0` (R45). -/
def Cmd5.op (c : Cmd5) : BitVec 8 := c.w0.extractLsb' 0 8

/-- `RSV`, bits [31:8] of `W0` (R45). -/
def Cmd5.rsv (c : Cmd5) : BitVec 24 := c.w0.extractLsb' 8 24

/-- Accept the command when every must-be-zero field is 0 (R48, R49). -/
def requireZero (fields : List Word) (i : Instr) : Except Illegal Instr :=
  if fields.all (fun f => f == 0) then .ok i else .error .operandNotZero

/-- The operands of the command that `OP` names (R47, R48), or the unknown opcode. -/
def decodeOp (c : Cmd5) : Except Illegal Instr :=
  if c.op = 0x10 then requireZero [c.w3, c.w4] (.bcKey c.w1.toNat c.w2.toNat)
  else if c.op = 0x11 then requireZero [c.w2, c.w4] (.bcEnc c.w1.toNat c.w3.toNat)
  else if c.op = 0x12 then requireZero [c.w2, c.w4] (.bcDec c.w1.toNat c.w3.toNat)
  else if c.op = 0x13 then requireZero [c.w1, c.w2, c.w3, c.w4] .bcClr
  else if c.op = 0x20 then requireZero [] (.scInit c.w1.toNat c.w2.toNat c.w3.toNat c.w4.toNat)
  else if c.op = 0x21 then requireZero [] (.scXor c.w1.toNat c.w2.toNat c.w3.toNat c.w4.toNat)
  else if c.op = 0x22 then requireZero [c.w1, c.w2, c.w3, c.w4] .scClr
  else .error .unknownOpcode

/-- The total decoder (R50): one of the seven commands with its operands, or illegal. It reads no state. -/
def decode (c : Cmd5) : Except Illegal Instr :=
  if c.rsv = 0 then decodeOp c else .error .reservedNotZero

/-- The byte form of a descriptor (R46). -/
def Cmd5.toBytes (c : Cmd5) : List Byte :=
  Machine.bytesLe c.w0 ++ Machine.bytesLe c.w1 ++ Machine.bytesLe c.w2 ++ Machine.bytesLe c.w3 ++ Machine.bytesLe c.w4

/-- The descriptor of a 20-byte sequence (R46). -/
def Cmd5.ofBytes (bs : List Byte) : Cmd5 :=
  ⟨Machine.wordOf bs 0, Machine.wordOf bs 1, Machine.wordOf bs 2, Machine.wordOf bs 3, Machine.wordOf bs 4⟩

/-- Decoding of the byte form (R46): exactly 20 bytes. -/
def decodeBytes (bs : List Byte) : Except Illegal Instr :=
  if bs.length = 20 then decode (Cmd5.ofBytes bs) else .error .wrongLength

/-- The opcode of each command (R47). -/
def opcode : Instr → Word
  | .bcKey _ _ => 0x10
  | .bcEnc _ _ => 0x11
  | .bcDec _ _ => 0x12
  | .bcClr => 0x13
  | .scInit _ _ _ _ => 0x20
  | .scXor _ _ _ _ => 0x21
  | .scClr => 0x22

/-- The words of a command (R45, R47, R48): unused fields are 0. -/
def encode (i : Instr) : Cmd5 :=
  match i with
  | .bcKey a alen => ⟨opcode i, BitVec.ofNat 32 a, BitVec.ofNat 32 alen, 0, 0⟩
  | .bcEnc a b => ⟨opcode i, BitVec.ofNat 32 a, 0, BitVec.ofNat 32 b, 0⟩
  | .bcDec a b => ⟨opcode i, BitVec.ofNat 32 a, 0, BitVec.ofNat 32 b, 0⟩
  | .bcClr => ⟨opcode i, 0, 0, 0, 0⟩
  | .scInit a alen b blen =>
    ⟨opcode i, BitVec.ofNat 32 a, BitVec.ofNat 32 alen, BitVec.ofNat 32 b, BitVec.ofNat 32 blen⟩
  | .scXor a alen b blen =>
    ⟨opcode i, BitVec.ofNat 32 a, BitVec.ofNat 32 alen, BitVec.ofNat 32 b, BitVec.ofNat 32 blen⟩
  | .scClr => ⟨opcode i, 0, 0, 0, 0⟩

/-- The byte form of a command (R46). -/
def encodeBytes (i : Instr) : List Byte := (encode i).toBytes

/-- The descriptor whose bits are numbered from bit 0 of `W0` on, with `nbits` bits of `w` and zeros above: the
numbering of spec/opcode_table.json. -/
def tableWordCmd (nbits w : Nat) : Cmd5 :=
  let v := w % 2 ^ nbits
  ⟨BitVec.ofNat 32 v, BitVec.ofNat 32 (v >>> 32), BitVec.ofNat 32 (v >>> 64), BitVec.ofNat 32 (v >>> 96),
   BitVec.ofNat 32 (v >>> 128)⟩

/-- The command that the decoder reads from the byte form of a table word. -/
def decodeTableWord (nbits w : Nat) : Option Instr :=
  match decodeBytes (tableWordCmd nbits w).toBytes with
  | .ok i => some i
  | .error _ => none

end Sys2Proof
end

