-- ==== Sys2Proof/Machine/Tables.lean ====
section
/-! DEFINITION. The constant tables and word functions of the block cipher engine (spec/40_constant_tables.md R60 to
R66). -/

namespace Sys2Proof.Machine

/-- The substitution tables `T_0 .. T_7` (R60). -/
def sboxTable : Vector (Vector (BitVec 4) 16) 8 :=
  #v[#v[3, 8, 15, 1, 10, 6, 5, 11, 14, 13, 4, 2, 7, 0, 9, 12],
     #v[15, 12, 2, 7, 9, 0, 5, 10, 1, 11, 14, 8, 6, 13, 3, 4],
     #v[8, 6, 7, 9, 3, 12, 10, 15, 13, 1, 14, 4, 0, 11, 5, 2],
     #v[0, 15, 11, 8, 12, 9, 6, 3, 13, 1, 2, 4, 10, 7, 5, 14],
     #v[1, 15, 8, 3, 12, 0, 11, 6, 2, 5, 4, 10, 9, 14, 7, 13],
     #v[15, 5, 2, 11, 4, 10, 9, 12, 0, 3, 14, 8, 13, 6, 7, 1],
     #v[7, 2, 12, 5, 8, 4, 6, 11, 14, 9, 1, 15, 13, 3, 10, 0],
     #v[1, 13, 15, 0, 14, 8, 2, 11, 7, 4, 12, 10, 9, 3, 5, 6]]

/-- The inverse tables `TI_0 .. TI_7`, written out (R61). -/
def sboxInvTable : Vector (Vector (BitVec 4) 16) 8 :=
  #v[#v[13, 3, 11, 0, 10, 6, 5, 12, 1, 14, 4, 7, 15, 9, 8, 2],
     #v[5, 8, 2, 14, 15, 6, 12, 3, 11, 4, 7, 9, 1, 13, 10, 0],
     #v[12, 9, 15, 4, 11, 14, 1, 2, 0, 3, 6, 13, 5, 8, 10, 7],
     #v[0, 9, 10, 7, 11, 14, 6, 13, 3, 5, 12, 2, 4, 8, 15, 1],
     #v[5, 0, 8, 3, 10, 9, 7, 14, 2, 12, 11, 6, 4, 15, 13, 1],
     #v[8, 15, 2, 9, 4, 1, 13, 14, 11, 6, 5, 3, 7, 12, 10, 0],
     #v[15, 10, 1, 13, 5, 3, 6, 0, 4, 9, 14, 7, 2, 12, 8, 11],
     #v[3, 0, 6, 13, 9, 14, 15, 8, 5, 12, 11, 7, 10, 1, 4, 2]]

/-- `T_k[n]` (R60). -/
def sbox (k : Fin 8) (n : BitVec 4) : BitVec 4 := sboxTable[k][n.toFin]

/-- `TI_k[n]` (R61). -/
def sboxInv (k : Fin 8) (n : BitVec 4) : BitVec 4 := sboxInvTable[k][n.toFin]

/-- The substitution function `S_k` (R62). -/
def subst (k : Fin 8) (q : Quad) : Quad := mapColumns (sbox k) q

/-- The inverse substitution function `SI_k` (R63). -/
def substInv (k : Fin 8) (q : Quad) : Quad := mapColumns (sboxInv k) q

/-- The diffusion transform `LT` (R64), its ten steps in order. -/
def diffuse (q : Quad) : Quad :=
  let x0 := rotl32 q.r0 13
  let x2 := rotl32 q.r2 3
  let x1 := q.r1 ^^^ x0 ^^^ x2
  let x3 := q.r3 ^^^ x2 ^^^ (x0 <<< 3)
  let x1 := rotl32 x1 1
  let x3 := rotl32 x3 7
  let x0 := x0 ^^^ x1 ^^^ x3
  let x2 := x2 ^^^ x3 ^^^ (x1 <<< 7)
  let x0 := rotl32 x0 5
  let x2 := rotl32 x2 22
  ⟨x0, x1, x2, x3⟩

/-- The inverse diffusion transform `LTI` (R65), its ten steps in order. -/
def diffuseInv (q : Quad) : Quad :=
  let x2 := rotr32 q.r2 22
  let x0 := rotr32 q.r0 5
  let x2 := x2 ^^^ q.r3 ^^^ (q.r1 <<< 7)
  let x0 := x0 ^^^ q.r1 ^^^ q.r3
  let x3 := rotr32 q.r3 7
  let x1 := rotr32 q.r1 1
  let x3 := x3 ^^^ x2 ^^^ (x0 <<< 3)
  let x1 := x1 ^^^ x0 ^^^ x2
  let x2 := rotr32 x2 3
  let x0 := rotr32 x0 13
  ⟨x0, x1, x2, x3⟩

/-- `PHI`, the key-schedule constant (R66). -/
def phi : Word := 0x9e3779b9

end Sys2Proof.Machine
end

