-- ==== Sys2Proof/Machine/KeySchedule.lean ====
section
/-! DEFINITION. The key schedule of the block cipher (spec/41_block_key_schedule.md R81 to R83). -/

namespace Sys2Proof.Machine

/-- Word `j` of `PACK` (R81): a key word, the marker 1 right after the last key word, or 0. -/
def packWord (key : List Byte) (j : Nat) : Word :=
  if j < key.length / 4 then wordOf key j else if j = key.length / 4 then 1 else 0

/-- `PACK` (R81): `W[0..7]`. -/
def pack (key : List Byte) : List Word := (List.range 8).map (packWord key)

/-- The recurrence of R82 at index `i`. `prev` holds `W[i-1], W[i-2], ..`, newest first, so that `W[i-8]` stands at 7,
`W[i-5]` at 4, `W[i-3]` at 2 and `W[i-1]` at 0. -/
def nextPrekey (prev : List Word) (i : Nat) : Word :=
  rotl32 (prev.getD 7 0 ^^^ prev.getD 4 0 ^^^ prev.getD 2 0 ^^^ prev.getD 0 0 ^^^ phi ^^^ BitVec.ofNat 32 (i - 8)) 11

/-- `n` steps of the recurrence from index `i` on, the words newest first. -/
def expandSteps (prev : List Word) (i : Nat) : Nat → List Word
  | 0 => prev
  | n + 1 => expandSteps (nextPrekey prev i :: prev) (i + 1) n

/-- `EXPAND` (R82): `W[0..139]` in ascending order, the eight packed words and the 132 raw words. -/
def expand (w : List Word) : List Word := (expandSteps w.reverse 8 132).reverse

/-- The substitution function of group `g` (R66, R83): `S_((3 - g) mod 8)`. -/
def groupSbox (g : Nat) : Fin 8 := Fin.ofNat 8 (3 + 7 * g)

/-- Group `g` of the raw words, `W[8+4g .. 11+4g]` (R83). -/
def rawGroup (w : List Word) (g : Nat) : Quad :=
  ⟨w.getD (8 + 4 * g) 0, w.getD (9 + 4 * g) 0, w.getD (10 + 4 * g) 0, w.getD (11 + 4 * g) 0⟩

/-- Word `t` of a group. -/
def Quad.word (q : Quad) (t : Nat) : Word := if t = 0 then q.r0 else if t = 1 then q.r1 else if t = 2 then q.r2 else q.r3

/-- The 33 groups after the substitution pass (R83). -/
def substGroups (w : List Word) : Vector Quad 33 := Vector.ofFn fun g => subst (groupSbox g.val) (rawGroup w g.val)

/-- The 33 results in order (R83): `RK[4g + t]` is output `b_t` of group `g`. -/
def flattenGroups (groups : Vector Quad 33) : Vector Word 132 :=
  Vector.ofFn fun i => Quad.word groups[i.val / 4] (i.val % 4)

/-- The round-key set of a key (R80 to R83). -/
def roundKeys (key : List Byte) : Vector Word 132 := flattenGroups (substGroups (expand (pack key)))

end Sys2Proof.Machine
end

