-- ==== Sys2Proof/Machine/BlockCodec.lean ====
section
/-! DEFINITION. The block functions of the block cipher (spec/42_block_codec.md R90, R91). -/

namespace Sys2Proof.Machine

/-- The round subkey `RK[4g .. 4g+3]`; group 32 is the final whitening subkey (R10). -/
def subkey (rk : Vector Word 132) (g : Fin 33) : Quad :=
  ⟨rk[4 * g.val], rk[4 * g.val + 1], rk[4 * g.val + 2], rk[4 * g.val + 3]⟩

/-- The substitution function of round `i`: `S_(i mod 8)` (R90). -/
def roundSbox (i : Fin 32) : Fin 8 := Fin.ofNat 8 i.val

/-- Round `i` of `ENC_BLOCK` (R90): key mixing, substitution, and diffusion in every round but the last. -/
def encRound (rk : Vector Word 132) (r : Quad) (i : Fin 32) : Quad :=
  let mixed := r.xor (subkey rk i.castSucc)
  let substituted := subst (roundSbox i) mixed
  if i.val ≠ 31 then diffuse substituted else substituted

/-- `ENC_BLOCK` (R90). -/
def encBlock (rk : Vector Word 132) (r : Quad) : Quad :=
  ((List.finRange 32).foldl (encRound rk) r).xor (subkey rk 32)

/-- Round `i` of `DEC_BLOCK` (R91): the inverse of `encRound`, step by step in reverse. -/
def decRound (rk : Vector Word 132) (r : Quad) (i : Fin 32) : Quad :=
  let undiffused := if i.val ≠ 31 then diffuseInv r else r
  (substInv (roundSbox i) undiffused).xor (subkey rk i.castSucc)

/-- `DEC_BLOCK` (R91): rounds taken in the order 31..0. -/
def decBlock (rk : Vector Word 132) (r : Quad) : Quad :=
  (List.finRange 32).reverse.foldl (decRound rk) (r.xor (subkey rk 32))

end Sys2Proof.Machine
end

