-- ==== Sys2Proof/Machine/Formulas.lean ====
section
/-! DEFINITION. The meaning of word formulas and the reference formula set `SCF_PUB` of the stream cipher
(spec/00_scope.md R3, spec/40_constant_tables.md R67, spec/43_stream_state.md R107, R109, R114, R116). -/

namespace Sys2Proof.Machine

/-- The value of a word formula over its input words, each operation as R4 defines it. -/
def evalExpr {n : Nat} (env : Vector Word n) : WExpr n → Word
  | .input i => env[i]
  | .const w => w
  | .xor a b => evalExpr env a ^^^ evalExpr env b
  | .and a b => evalExpr env a &&& evalExpr env b
  | .or a b => evalExpr env a ||| evalExpr env b
  | .not a => ~~~ evalExpr env a
  | .add a b => evalExpr env a + evalExpr env b
  | .sub a b => evalExpr env a - evalExpr env b
  | .shl k a => evalExpr env a <<< k.val
  | .shr k a => evalExpr env a >>> k.val
  | .rotl k a => rotl32 (evalExpr env a) k.val

/-- All formulas of a member of `SCF`, over the same input words. -/
def evalExprs {n m : Nat} (es : Vector (WExpr n) m) (env : Vector Word n) : Vector Word m :=
  Vector.ofFn fun j => evalExpr env es[j]

/-- `(high << 16) | (low >> 16)` of R107. -/
def blendShift (high low : Fin 4) : WExpr 4 := .or (.shl 16 (.input high)) (.shr 16 (.input low))

/-- `(high & 0xFFFF0000) | (low & 0x0000FFFF)` of R107. -/
def blendMask (high low : Fin 4) : WExpr 4 :=
  .or (.and (.input high) (.const 0xFFFF0000)) (.and (.input low) (.const 0x0000FFFF))

/-- `high << 16 | low`, the IV mixing word of R109. -/
def ivPair (high low : Fin 4) : WExpr 4 := .or (.shl 16 (.input high)) (.input low)

/-- Even lane `j` of R114: `G[j] + rotl32(G[j-1], 16) + rotl32(G[j-2], 16)`, lane indices modulo 8. -/
def gMixEven (j : Fin 8) : WExpr 8 :=
  .add (.add (.input j) (.rotl 16 (.input (j - 1)))) (.rotl 16 (.input (j - 2)))

/-- Odd lane `j` of R114: `G[j] + rotl32(G[j-1], 8) + G[j-2]`, lane indices modulo 8. -/
def gMixOdd (j : Fin 8) : WExpr 8 := .add (.add (.input j) (.rotl 8 (.input (j - 1)))) (.input (j - 2))

/-- `X[i] ^ (X[h] >> 16) ^ (X[l] << 16)` of R116. -/
def ksMixWord (i h l : Fin 8) : WExpr 8 := .xor (.xor (.input i) (.shr 16 (.input h))) (.shl 16 (.input l))

/-- The reference formula set `SCF_PUB` (R67, R107, R109, R114, R116), which the spec supplies from general
knowledge and does not assert of the cs-labs implementation (90_conflicts.md C3). Log entry 3. -/
def scfPub : Scf where
  keyMixX := #v[.input 0, blendShift 3 2, .input 1, blendShift 0 3, .input 2, blendShift 1 0, .input 3, blendShift 2 1]
  keyMixC := #v[.rotl 16 (.input 2), blendMask 0 1, .rotl 16 (.input 3), blendMask 1 2,
                .rotl 16 (.input 0), blendMask 2 3, .rotl 16 (.input 1), blendMask 3 0]
  ivMix := #v[ivPair 1 0, ivPair 3 1, ivPair 3 2, ivPair 2 0]
  ivLane := #v[0, 1, 2, 3, 0, 1, 2, 3]
  laneA := #v[0x4D34D34D, 0xD34D34D3, 0x34D34D34, 0x4D34D34D, 0xD34D34D3, 0x34D34D34, 0x4D34D34D, 0xD34D34D3]
  gMix := #v[gMixEven 0, gMixOdd 1, gMixEven 2, gMixOdd 3, gMixEven 4, gMixOdd 5, gMixEven 6, gMixOdd 7]
  ksMix := #v[ksMixWord 0 5 3, ksMixWord 2 7 5, ksMixWord 4 1 7, ksMixWord 6 3 1]

/-- The reference configuration of the spec's examples: `DMEM_BYTES` = 0x400, `SC_CTR_MODE` = `add`, `SCF` =
`SCF_PUB` (95_test_vectors.md, "Conventions"). Log entry 1. -/
def refConfig : Config := ⟨0x400, .add, scfPub⟩

end Sys2Proof.Machine
end

