-- ==== Sys2Proof/Machine/State.lean ====
section
/-! DEFINITION. The architectural state of the CORE (spec/10_state.md R10 to R19), the moves of the host that drive it
(spec/20_memory.md R33), the outcome codes, the reasons a step can stop, and the state after reset
(spec/70_reset_and_hazards.md R185). -/

namespace Sys2Proof.Machine

/-- The state of the block cipher engine BCE (R10). -/
structure Bce where
  /-- `RK[0..131]` -/
  rk : Vector Word 132
  /-- `BK_VALID` -/
  valid : Bool
deriving DecidableEq, Repr

/-- The state of the stream cipher engine SCE (R11). -/
structure Sce where
  /-- `X[0..7]` -/
  x : Vector Word 8
  /-- `C[0..7]` -/
  c : Vector Word 8
  /-- `CARRY` -/
  carry : Bool
  /-- `KSBUF[0..15]` -/
  ksbuf : Vector Byte 16
  /-- `KS_POS`, an integer 0..16; the pending bytes are `KSBUF[KS_POS .. 15]` -/
  ksPos : Nat
  /-- `SC_VALID` -/
  valid : Bool
deriving DecidableEq, Repr

/-- The outcome codes of R163. -/
inductive Code where
  | ok
  | invalidKeySize
  | invalidKeyLength
  | invalidIVLength
  | bufferTooSmall
  | overlappingBuffers
  /-- reserved for host software; no command produces it (R163, R170) -/
  | hexDecodeError
  | illegalCommand
  | notReady
  | addrRange
  | aborted
deriving DecidableEq, Repr

/-- A move of the HOST between commands (R13, R33, R185). The CORE has no program counter: "what a model needs in
place of a pc is the index into the host's command list" (R12); the list of moves not yet taken stands for it.
Log entry 8. -/
inductive HostMove where
  /-- issue a command, by value -/
  | command (w : Cmd5)
  /-- read the `STATUS` word -/
  | readStatus
  /-- read `n` bytes of `DMEM` from address `a` -/
  | readMem (a n : Nat)
  /-- write bytes to `DMEM` from address `a` -/
  | writeMem (a : Nat) (bs : List Byte)
  /-- raise `RESET` -/
  | reset
  /-- power the CORE off and on again: `RESET` that also loses `DMEM` -/
  | powerOn
deriving DecidableEq, Repr

/-- What the CORE answered to the latest host move (R52). Log entry 9. -/
inductive Reply where
  | none
  | status (w : Word)
  | data (bs : List Byte)
deriving DecidableEq, Repr

/-- The whole state of the machine. The fields of `bce` and `sce`, `code`, `abort` and `dmem` are the spec's; `cfg`
holds the spec's open parameters; `inbox`, `reply` and `draws` are the model's own (log entries 1, 6, 8, 9). -/
structure State where
  /-- the parameters of R3; no step changes them -/
  cfg : Config
  /-- R10 -/
  bce : Bce
  /-- R11 -/
  sce : Sce
  /-- `STATUS.CODE` (R13) -/
  code : Byte
  /-- `ABORT` (R13) -/
  abort : Bool
  /-- `DMEM` (R17, R30): address and byte pairs in canonical form, `Memory.wf` -/
  dmem : List Host.Cell
  /-- the host moves not yet taken, in order of issue -/
  inbox : List HostMove
  /-- the answer to the latest host move -/
  reply : Reply
  /-- how many sets of free values the machine has drawn -/
  draws : Nat
deriving DecidableEq, Repr

/-- Why a run stops. No command stops a run: every command ends in success, fail or abort (R160), each a next state. -/
inductive Fault where
  /-- Raised by the step on a HOST read or write of `DMEM` that passes `DMEM_BYTES`: such an address does not exist
  (R30), and `MemRead` and `MemWrite` are defined only inside (R4). SAFE: the run stops, no state is claimed for it. -/
  | hostAddress (a n : Nat)
deriving DecidableEq, Repr

/-- Why the model gives a command no meaning. -/
inductive Refusal where
  /-- Raised by `exec` for a command of the opcode table that has no meaning in the model. SAFE: nothing is claimed.
  No arm raises it: all seven commands have their meaning. -/
  | notModelled (mnemonic : String)
deriving DecidableEq, Repr

/-- The machine right after power-on (R185): `BK_VALID`, `SC_VALID`, `ABORT` and `STATUS.CODE` as the rule gives
them. The values of `RK`, `X`, `C`, `CARRY`, `KSBUF`, `KS_POS`, which the rule leaves unspecified, are DESIGN
CHOICE, UNSAFE, log entry 4; `DMEM` is log entry 5; `cfg` is log entry 1; nothing waits in `inbox`. -/
def State.reset : State where
  cfg := refConfig
  bce := { rk := Vector.replicate 132 0, valid := false }
  sce := { x := Vector.replicate 8 0, c := Vector.replicate 8 0, carry := false,
           ksbuf := Vector.replicate 16 0, ksPos := 0, valid := false }
  code := 0x00
  abort := false
  dmem := []
  inbox := []
  reply := .none
  draws := 0

end Sys2Proof.Machine
end

