-- ==== Sys2Proof/Machine/Flags.lean ====
section
/-! DEFINITION. The outcome codes as numbers, the `STATUS` word and the carry of the counter update
(spec/10_state.md R13, R14, spec/60_exceptions.md R163, spec/43_stream_state.md R112). -/

namespace Sys2Proof.Machine

/-- The number of each outcome code (R163). -/
def Code.toByte : Code → Byte
  | .ok => 0x00
  | .invalidKeySize => 0x01
  | .invalidKeyLength => 0x02
  | .invalidIVLength => 0x03
  | .bufferTooSmall => 0x04
  | .overlappingBuffers => 0x05
  | .hexDecodeError => 0x06
  | .illegalCommand => 0x07
  | .notReady => 0x08
  | .addrRange => 0x09
  | .aborted => 0x0A

/-- `STATUS.KS_PENDING` (R13): `16 - KS_POS` when `SC_VALID` = 1, else 0. -/
def Sce.pending (e : Sce) : Nat := if e.valid then 16 - e.ksPos else 0

/-- The `STATUS` word (R13): `CODE` in [7:0], `ABORT` in [8], `BK_VALID` in [9], `SC_VALID` in [10], `KS_PENDING` in
[20:16], every other bit 0. -/
def State.statusWord (s : State) : Word :=
  s.code.setWidth 32
    ||| (BitVec.ofBool s.abort).setWidth 32 <<< 8
    ||| (BitVec.ofBool s.bce.valid).setWidth 32 <<< 9
    ||| (BitVec.ofBool s.sce.valid).setWidth 32 <<< 10
    ||| (BitVec.ofNat 5 s.sce.pending).setWidth 32 <<< 16

/-- One lane of the counter update (R112): the new counter word and the bit threaded to the next lane. In mode `add`
the sum is a 33-bit integer and the bit its overflow; in mode `sub` the difference is an integer and the bit says
that it is negative (R68). -/
def counterLane (mode : CtrMode) (c a : Word) (b : Bool) : Word × Bool :=
  match mode with
  | .add =>
    let t := c.toNat + a.toNat + b.toNat
    (BitVec.ofNat 32 t, decide (2 ^ 32 ≤ t))
  | .sub =>
    let t : Int := (c.toNat : Int) - (a.toNat : Int) - (b.toNat : Int)
    (BitVec.ofInt 32 t, decide (t < 0))

end Sys2Proof.Machine
end

