-- ==== Sys2Proof/Machine/Operands.lean ====
section
/-! DEFINITION. The operands of the commands: address ranges, legal lengths, the overlap test
(spec/20_memory.md R36, spec/44_stream_combine.md R125, spec/60_exceptions.md R163). All arithmetic is on unbounded
integers (spec/40_constant_tables.md R68). -/

namespace Sys2Proof.Machine

/-- The range `[p, p + len)` is inside `DMEM` (R36): `P + L <= DMEM_BYTES`. -/
def inRange (cfg : Config) (p len : Nat) : Bool := decide (p + len ≤ cfg.dmemBytes)

/-- The legal key lengths of `BC.KEY` (R80, `BC_KEY_BYTES`). -/
def legalBcKey (alen : Nat) : Bool := alen == 16 || alen == 24 || alen == 32

/-- The legal key length of `SC.INIT` (R105, `SC_KEY_BYTES`). -/
def legalScKey (alen : Nat) : Bool := alen == 16

/-- The legal IV lengths of `SC.INIT` (R105, `SC_IV_BYTES`). -/
def legalScIv (blen : Nat) : Bool := blen == 0 || blen == 8

/-- `overlap` of R125: the source is not empty and the two declared ranges share an address. -/
def overlaps (a alen b blen : Nat) : Bool := decide (0 < alen) && decide (a < b + blen) && decide (b < a + alen)

/-- The condition of `OverlappingBuffers` (R125, R169): an overlap that is not exactly in place. -/
def badOverlap (a alen b blen : Nat) : Bool := overlaps a alen b blen && !(a == b)

end Sys2Proof.Machine
end

