-- ==== Sys2Proof/Machine/Ops.lean ====
section
/-! DEFINITION. The named operations over memory and control state: `DMEM` reads and writes, the two ways a command
is turned away (`raise Fail`, `raise Abort`), the checks of a command in their order, the reset event, and the free
values (spec/20_memory.md R30 to R43, spec/60_exceptions.md R160 to R164, R175, R177, R178,
spec/70_reset_and_hazards.md R185). -/

namespace Sys2Proof.Machine

/-! ### The data memory -/

/-- What a byte of `DMEM` that nothing has written reads as: the spec gives no value (R43). DESIGN CHOICE, UNSAFE,
log entry 5. -/
def memFill : Byte := 0x00

/-- Every listed address is above `low`, addresses rise strictly, and no listed byte is `memFill`. -/
def Memory.wfFrom (low : Nat) : List Host.Cell → Bool
  | [] => true
  | (a, v) :: rest => decide (low ≤ a) && !(v == memFill) && Memory.wfFrom (a + 1) rest

/-- The canonical form of `DMEM`: addresses strictly rising, no listed byte equal to what an unlisted address reads
as. -/
def Memory.wf (m : List Host.Cell) : Bool := Memory.wfFrom 0 m

/-- No address of the list is outside `DMEM` (R30). -/
def Memory.inside (cfg : Config) (m : List Host.Cell) : Bool := m.all fun cell => decide (cell.1 < cfg.dmemBytes)

/-- `DMEM[a]` (R4, R30). -/
def memRead (m : List Host.Cell) (a : Nat) : Byte :=
  match m with
  | [] => memFill
  | (b, v) :: rest => if a = b then v else memRead rest a

/-- `DMEM[a] <- v` (R4, R30), keeping the canonical form. -/
def memWrite (m : List Host.Cell) (a : Nat) (v : Byte) : List Host.Cell :=
  match m with
  | [] => if v = memFill then [] else [(a, v)]
  | (b, w) :: rest =>
    if a < b then (if v = memFill then (b, w) :: rest else (a, v) :: (b, w) :: rest)
    else if a = b then (if v = memFill then rest else (a, v) :: rest)
    else (b, w) :: memWrite rest a v

/-- `MemRead(addr, n)` of R4: n bytes, lowest address first. -/
def memReadBytes (m : List Host.Cell) (a : Nat) : Nat → List Byte
  | 0 => []
  | n + 1 => memRead m a :: memReadBytes m (a + 1) n

/-- `MemWrite(addr, n, v)` of R4: the bytes from address `a` on. -/
def memWriteBytes (m : List Host.Cell) (a : Nat) : List Byte → List Host.Cell
  | [] => m
  | v :: rest => memWriteBytes (memWrite m a v) (a + 1) rest

/-! ### How a command ends -/

/-- `raise Fail(code)` (R161): `STATUS.CODE` and nothing else. -/
def State.raiseFail (s : State) (k : Code) : State := { s with code := k.toByte }

/-- `raise Abort(code)` (R162): `STATUS.CODE` and the sticky `ABORT`, nothing else. This and `raiseFail` are the whole
of taking an exception (R177); there is no return from one, only RESET leaves the aborted condition (R178). -/
def State.raiseAbort (s : State) (k : Code) : State := { s with code := k.toByte, abort := true }

/-- The last line of every successful command: `STATUS.CODE <- OK`. -/
def State.succeed (s : State) : State := { s with code := Code.toByte .ok }

/-- The class of an error (R160): fail or abort. -/
inductive ErrorClass where
  | fail
  | abort
deriving DecidableEq, Repr

/-- One check of a command (R175): when `bad` holds, the command ends with `code` in class `cls`. -/
structure Check where
  bad : Bool
  cls : ErrorClass
  code : Code
deriving DecidableEq, Repr

/-- The first check that fails (R175: "reports the first that fails"). -/
def firstFailing : List Check → Option Check
  | [] => none
  | k :: rest => if k.bad then some k else firstFailing rest

/-- End the command as the failing check says (R161, R162). -/
def State.turnAway (s : State) (k : Check) : State :=
  match k.cls with
  | .fail => s.raiseFail k.code
  | .abort => s.raiseAbort k.code

/-- One command (R160, R175): `Aborted` before every other check (R164), then the command's own checks in order, all
of them before any access; when none fails, the command's effect and `STATUS.CODE <- OK`. -/
def runCommand (checks : List Check) (effect : State → State) (s : State) : Host.Outcome State Fault Refusal :=
  match firstFailing (⟨s.abort, .fail, .aborted⟩ :: checks) with
  | some k => .next (s.turnAway k)
  | none => .next (effect s).succeed

/-- The check of R36 for one operand range. -/
def rangeCheck (s : State) (p len : Nat) : Check := ⟨!inRange s.cfg p len, .abort, .addrRange⟩

/-- The answer to a descriptor that is no command (R49, R171): `Fail(IllegalCommand)`, or `Aborted` while `ABORT` = 1,
which is tested first (R164). -/
def illegalCommand (s : State) : Host.Outcome State Fault Refusal :=
  runCommand [⟨true, .fail, .illegalCommand⟩] id s

/-! ### Unspecified values and reset -/

/-- A round-key set whose words are free values (R94, R185, U1). -/
@[irreducible] def freeRk (d : Nat) : Vector Word 132 := Vector.ofFn fun i => Config.freeWord d i.val

/-- Stream cipher registers whose values are free, with `SC_VALID` = 0 (R128, R185, U1). -/
def freeSce (d : Nat) : Sce where
  x := Vector.ofFn fun i => Config.freeWord d (132 + i.val)
  c := Vector.ofFn fun i => Config.freeWord d (140 + i.val)
  carry := Config.freeBit d
  ksbuf := Vector.ofFn fun i => Config.freeByte d i.val
  ksPos := (Config.freePos d).val
  valid := false

/-- The `RESET` event raised by the host (R185): both valid flags, `ABORT` and `STATUS.CODE` cleared, every other
register unspecified, `DMEM` unchanged. -/
def State.resetEvent (s : State) : State :=
  { s with
    bce := { rk := freeRk s.draws, valid := false }
    sce := freeSce s.draws
    code := Code.toByte .ok
    abort := false
    draws := s.draws + 1 }

/-- The memory that holds the given bytes, addresses at or above `DMEM_BYTES` left out. -/
def memOfCells (cfg : Config) : List Host.Cell → List Host.Cell
  | [] => []
  | (a, v) :: rest => if a < cfg.dmemBytes then memWrite (memOfCells cfg rest) a v else memOfCells cfg rest

/-- `RESET` raised by power-on (R185): as `resetEvent`, and `DMEM` is unspecified. Log entry 11. -/
def State.powerOnEvent (s : State) : State :=
  { s.resetEvent with dmem := memOfCells s.cfg (Config.freeDmem s.draws) }

end Sys2Proof.Machine
end

