-- ==== Sys2Proof/Machine/BlockCommands.lean ====
section
/-! DEFINITION. The meanings of the block cipher commands `BC.KEY`, `BC.ENC`, `BC.DEC`, `BC.CLR`
(spec/41_block_key_schedule.md R80, spec/42_block_codec.md R92 to R94). -/

namespace Sys2Proof.Machine

/-- `NotReady` of the block cipher (R172). -/
def bcNotReady (s : State) : Check := ⟨!s.bce.valid, .fail, .notReady⟩

/-- Write the four words as 16 bytes to `DMEM[b ..]` (R31 (a)). -/
def State.storeBlock (s : State) (b : Nat) (q : Quad) : State := { s with dmem := memWriteBytes s.dmem b (quadBytes q) }

/-- The 16-byte block at `DMEM[a ..]` as four words (R31 (a)). -/
def State.loadBlock (s : State) (a : Nat) : Quad := quadOfBytes (memReadBytes s.dmem a 16)

/-- `BC.KEY a, alen` (R80). -/
def execBcKey (a alen : Nat) (s : State) : Host.Outcome State Fault Refusal :=
  runCommand [rangeCheck s a alen, ⟨!legalBcKey alen, .fail, .invalidKeySize⟩]
    (fun s => { s with bce := { rk := roundKeys (memReadBytes s.dmem a alen), valid := true } }) s

/-- `BC.ENC a, b` (R92): all 16 source bytes are read before any destination byte is written (R39). -/
def execBcEnc (a b : Nat) (s : State) : Host.Outcome State Fault Refusal :=
  runCommand [bcNotReady s, rangeCheck s a 16, rangeCheck s b 16]
    (fun s => s.storeBlock b (encBlock s.bce.rk (s.loadBlock a))) s

/-- `BC.DEC a, b` (R93). -/
def execBcDec (a b : Nat) (s : State) : Host.Outcome State Fault Refusal :=
  runCommand [bcNotReady s, rangeCheck s a 16, rangeCheck s b 16]
    (fun s => s.storeBlock b (decBlock s.bce.rk (s.loadBlock a))) s

/-- The effect of `BC.CLR` (R94): `BK_VALID` cleared and `RK` unspecified; with `BK_VALID` = 0 it "changes nothing but
STATUS.CODE". DESIGN CHOICE, log entry 7; R10 and R18 (b) beside R94: DEDUCED, log entry 12. -/
def State.clearKey (s : State) : State :=
  if s.bce.valid then { s with bce := { rk := freeRk s.draws, valid := false }, draws := s.draws + 1 } else s

/-- `BC.CLR` (R94). -/
def execBcClr (s : State) : Host.Outcome State Fault Refusal := runCommand [] State.clearKey s

end Sys2Proof.Machine
end

