-- ==== Sys2Proof/Machine/StreamState.lean ====
section
/-! DEFINITION. The stream state machine: key setup, IV setup, next state, extraction, and the keystream byte that
the combiner takes (spec/43_stream_state.md R106 to R116, spec/44_stream_combine.md R125). -/

namespace Sys2Proof.Machine

/-- The lanes in the order of R112. -/
def lanes : List (Fin 8) := [0, 1, 2, 3, 4, 5, 6, 7]

/-- The counter update (R112): lanes 0 to 7 in order, one bit threaded through; the bit that enters lane 0 is `CARRY`
and the bit that leaves lane 7 is the new `CARRY`. -/
def counterUpdate (mode : CtrMode) (a c : Vector Word 8) (carry : Bool) : Vector Word 8 × Bool :=
  lanes.foldl (fun st (j : Fin 8) =>
    let lane := counterLane mode st.1[j] a[j] st.2
    (st.1.set j lane.1, lane.2)) (c, carry)

/-- The `g` function (R113): the 32-bit sum, squared exactly to 64 bits, its two halves XORed. -/
def gValue (x c : Word) : Word :=
  let u := x + c
  let sq : BitVec 64 := u.setWidth 64 * u.setWidth 64
  sq.extractLsb' 0 32 ^^^ sq.extractLsb' 32 32

/-- `NEXTSTATE` (R111): counter update, the eight `g` values, state combination. -/
def nextState (cfg : Config) (e : Sce) : Sce :=
  let counters := counterUpdate cfg.ctrMode cfg.scf.laneA e.c e.carry
  let g : Vector Word 8 := Vector.ofFn fun j => gValue e.x[j] counters.1[j]
  { e with x := evalExprs cfg.scf.gMix g, c := counters.1, carry := counters.2 }

/-- `NEXTSTATE` four times (R108, R109). -/
def nextState4 (cfg : Config) (e : Sce) : Sce := nextState cfg (nextState cfg (nextState cfg (nextState cfg e)))

/-- The key words `k0..k3` of a 16-byte key (R106). -/
def keyWords (key : List Byte) : Vector Word 4 := Vector.ofFn fun t => wordOf key t.val

/-- `KEYSETUP`, first part (R107): `KEYMIX`, and `CARRY` starts at 0. -/
def keyMix (cfg : Config) (key : List Byte) (e : Sce) : Sce :=
  { e with
    x := evalExprs cfg.scf.keyMixX (keyWords key)
    c := evalExprs cfg.scf.keyMixC (keyWords key)
    carry := false }

/-- The counter re-mix of R108: `C[i] ^= X[(i + 4) mod 8]`. -/
def remix (e : Sce) : Sce := { e with c := Vector.ofFn fun i : Fin 8 => e.c[i] ^^^ e.x[i + 4] }

/-- `KEYSETUP` (R107, R108). -/
def keySetup (cfg : Config) (key : List Byte) (e : Sce) : Sce := remix (nextState4 cfg (keyMix cfg key e))

/-- The IV words `v_0..v_3` of an 8-byte IV, widened with zeros (R109). -/
def ivWords (iv : List Byte) : Vector Word 4 :=
  Vector.ofFn fun t => le16 (iv.getD (2 * t.val) 0) (iv.getD (2 * t.val + 1) 0)

/-- The XOR step of `IVSETUP` (R109): each counter word with its mixing word. -/
def ivMixIn (cfg : Config) (iv : List Byte) (e : Sce) : Sce :=
  let m := evalExprs cfg.scf.ivMix (ivWords iv)
  { e with c := Vector.ofFn fun j : Fin 8 => e.c[j] ^^^ m[cfg.scf.ivLane[j]] }

/-- `IVSETUP` (R109). -/
def ivSetup (cfg : Config) (iv : List Byte) (e : Sce) : Sce := nextState4 cfg (ivMixIn cfg iv e)

/-- The IV of `SC.INIT` (R105, R110): eight bytes of `DMEM`, or eight zero bytes when `BLEN` = 0. -/
def ivBytes (m : List Host.Cell) (b blen : Nat) : List Byte :=
  if blen = 8 then memReadBytes m b 8 else List.replicate 8 0

/-- The stream state after key setup and IV setup (R105): pending keystream empty, session valid. `KSBUF` keeps its bytes,
all consumed: DEDUCED, log entry 13. -/
def initSession (cfg : Config) (key iv : List Byte) (e : Sce) : Sce :=
  { ivSetup cfg iv (keySetup cfg key e) with ksPos := 16, valid := true }

/-- `KSMIX` (R116): the four keystream words. -/
def ksMix (cfg : Config) (x : Vector Word 8) : Quad :=
  let s := evalExprs cfg.scf.ksMix x
  ⟨s[0], s[1], s[2], s[3]⟩

/-- `EXTRACT` (R115): one `NEXTSTATE`, then the 16 keystream bytes, all pending. -/
def extract (cfg : Config) (e : Sce) : Sce :=
  let e' := nextState cfg e
  let bytes := quadBytes (ksMix cfg e'.x)
  { e' with ksbuf := Vector.ofFn fun i => bytes.getD i.val 0, ksPos := 0 }

/-- `if KS_POS = 16: EXTRACT()` (R125): a chunk is generated only when a byte is needed and none is pending. -/
def refill (cfg : Config) (e : Sce) : Sce := if e.ksPos = 16 then extract cfg e else e

/-- The keystream byte at the read position (R125). The read is inside the buffer in every state with
`KS_POS` <= 16; outside, which no run reaches, it gives 0 (log entry 16). -/
def ksByte (e : Sce) : Byte := e.ksbuf[e.ksPos]?.getD 0

/-- `KS_POS <- KS_POS + 1` (R125). -/
def advance (e : Sce) : Sce := { e with ksPos := e.ksPos + 1 }

/-- The loop of `SC.XOR` (R125) for `n` bytes from source `a` to destination `b`, ascending. -/
def xorLoop (cfg : Config) (a b : Nat) (e : Sce) (m : List Host.Cell) : Nat → Sce × List Host.Cell
  | 0 => (e, m)
  | n + 1 =>
    let ready := refill cfg e
    xorLoop cfg (a + 1) (b + 1) (advance ready) (memWrite m b (memRead m a ^^^ ksByte ready)) n

end Sys2Proof.Machine
end

