-- ==== Sys2Proof/Machine/StreamCommands.lean ====
section
/-! DEFINITION. The meanings of the stream cipher commands `SC.INIT`, `SC.XOR`, `SC.CLR`
(spec/43_stream_state.md R105, spec/44_stream_combine.md R125, R128). -/

namespace Sys2Proof.Machine

/-- `SC.INIT a, alen, b, blen` (R105). -/
def execScInit (a alen b blen : Nat) (s : State) : Host.Outcome State Fault Refusal :=
  runCommand
    [rangeCheck s a alen, rangeCheck s b blen,
     ⟨!legalScKey alen, .fail, .invalidKeyLength⟩, ⟨!legalScIv blen, .fail, .invalidIVLength⟩]
    (fun s => { s with sce := initSession s.cfg (memReadBytes s.dmem a 16) (ivBytes s.dmem b blen) s.sce }) s

/-- `NotReady` of the stream cipher (R172). -/
def scNotReady (s : State) : Check := ⟨!s.sce.valid, .fail, .notReady⟩

/-- The effect of `SC.XOR` (R125): the loop over `alen` bytes. -/
def State.combine (s : State) (a alen b : Nat) : State :=
  let r := xorLoop s.cfg a b s.sce s.dmem alen
  { s with sce := r.1, dmem := r.2 }

/-- `SC.XOR a, alen, b, blen` (R125). -/
def execScXor (a alen b blen : Nat) (s : State) : Host.Outcome State Fault Refusal :=
  runCommand
    [scNotReady s, rangeCheck s a alen, rangeCheck s b blen,
     ⟨decide (blen < alen), .abort, .bufferTooSmall⟩, ⟨badOverlap a alen b blen, .abort, .overlappingBuffers⟩]
    (fun s => s.combine a alen b) s

/-- The effect of `SC.CLR` (R128): `SC_VALID` cleared, every register of the engine unspecified. Log entry 6. -/
def State.clearSession (s : State) : State := { s with sce := freeSce s.draws, draws := s.draws + 1 }

/-- `SC.CLR` (R128). -/
def execScClr (s : State) : Host.Outcome State Fault Refusal := runCommand [] State.clearSession s

end Sys2Proof.Machine
end

