-- ==== Sys2Proof/Machine/Dispatch.lean ====
section
/-! DEFINITION. One arm per command of spec/opcode_table.json. -/

namespace Sys2Proof.Machine

/-- The meaning of each command. -/
def exec (i : Instr) (s : State) : Host.Outcome State Fault Refusal :=
  match i with
  | .bcKey a alen => Sys2Proof.Machine.execBcKey a alen s
  | .bcEnc a b => Sys2Proof.Machine.execBcEnc a b s
  | .bcDec a b => Sys2Proof.Machine.execBcDec a b s
  | .bcClr => Sys2Proof.Machine.execBcClr s
  | .scInit a alen b blen => Sys2Proof.Machine.execScInit a alen b blen s
  | .scXor a alen b blen => Sys2Proof.Machine.execScXor a alen b blen s
  | .scClr => Sys2Proof.Machine.execScClr s

end Sys2Proof.Machine
end

