-- ==== Sys2Proof/Machine/HostLink.lean ====
section
/-! DEFINITION. How the CORE serves one move of the host (spec/20_memory.md R33, spec/30_encoding.md R49, R52,
spec/10_state.md R13, spec/70_reset_and_hazards.md R185). -/

namespace Sys2Proof.Machine

/-- Execute a descriptor: the command that it encodes (R47), or the answer to an illegal one (R49). -/
def runDescriptor (w : Cmd5) (s : State) : Host.Outcome State Fault Refusal :=
  match decode w with
  | .ok i => exec i s
  | .error _ => illegalCommand s

/-- The response of a command (R52): the `STATUS` word as it stands after it. -/
def respond : Host.Outcome State Fault Refusal → Host.Outcome State Fault Refusal
  | .next s => .next { s with reply := .status s.statusWord }
  | .fault r => .fault r
  | .refused r => .refused r

/-- Serve one host move. A host access outside `DMEM` stops the run: the address does not exist (R30, log entry
10). -/
def serve (move : HostMove) (s : State) : Host.Outcome State Fault Refusal :=
  match move with
  | .command w => respond (runDescriptor w s)
  | .readStatus => .next { s with reply := .status s.statusWord }
  | .readMem a n =>
    if inRange s.cfg a n then .next { s with reply := .data (memReadBytes s.dmem a n) } else .fault (.hostAddress a n)
  | .writeMem a bs =>
    if inRange s.cfg a bs.length then .next { s with dmem := memWriteBytes s.dmem a bs, reply := .none }
    else .fault (.hostAddress a bs.length)
  | .reset => .next { s.resetEvent with reply := .none }
  | .powerOn => .next { s.powerOnEvent with reply := .none }

end Sys2Proof.Machine
end

