-- ==== Sys2Proof/Machine/Step.lean ====
section
/-! DEFINITION. One step of the machine: the next host move, or nothing when none waits (spec/10_state.md R12,
spec/60_exceptions.md R176). -/

namespace Sys2Proof.Machine

/-- One step. The CORE fetches nothing (R12, R41): it takes the host's next move by value. With no move waiting it
"otherwise does nothing" (R176): the state stays as it is. -/
def step (s : State) : Host.Outcome State Fault Refusal :=
  match s.inbox with
  | [] => .next s
  | move :: rest => serve move { s with inbox := rest }

/-- `s` with a command put where the next step takes it: in front of the host's other moves. It stands for the host
issuing that command (log entry 8). -/
def State.withFetchWord (s : State) (nbits w : Nat) : State :=
  { s with inbox := .command (tableWordCmd nbits w) :: s.inbox }

end Sys2Proof.Machine
end

