-- ==== Sys2Proof/Machine/Wrapper.lean ====
section
/-! DEFINITION. The host procedures around the CORE (spec/45_host_wrapper.md R140 to R152): software on the HOST, each a
sequence of host moves that the CORE serves. Text is a list of characters, data a list of bytes (R141). -/

namespace Sys2Proof.Machine

/-! ### Text and padding -/

/-- The lowercase hex digit of a 4-bit value (R142). -/
def hexDigit (n : BitVec 4) : Char :=
  ['0', '1', '2', '3', '4', '5', '6', '7', '8', '9', 'a', 'b', 'c', 'd', 'e', 'f'].getD n.toNat '0'

/-- `HEXENC` (R142): two digits per byte, the high one first. -/
def hexEnc : List Byte → List Char
  | [] => []
  | v :: rest => hexDigit (v.extractLsb' 4 4) :: hexDigit (v.extractLsb' 0 4) :: hexEnc rest

/-- The value of a hex digit. Uppercase digits are accepted (`HEX_ACCEPT_UPPER` = true, R3, R143); every other
character is no digit. -/
def hexValue (c : Char) : Option (BitVec 4) :=
  let n := c.toNat
  if 48 ≤ n ∧ n ≤ 57 then some (BitVec.ofNat 4 (n - 48))
  else if 97 ≤ n ∧ n ≤ 102 then some (BitVec.ofNat 4 (n - 87))
  else if 65 ≤ n ∧ n ≤ 70 then some (BitVec.ofNat 4 (n - 55))
  else none

/-- The byte of two hex digits, the high one first (R143). -/
def hexPair (c d : Char) : Option Byte :=
  match hexValue c, hexValue d with
  | some h, some l => some (h ++ l)
  | _, _ => none

/-- `HEXDEC` (R143): `none` is the host error `HexDecodeError`, for an odd length or a character that is no digit. -/
def hexDec : List Char → Option (List Byte)
  | [] => some []
  | [_] => none
  | c :: d :: rest =>
    match hexPair c d, hexDec rest with
    | some v, some vs => some (v :: vs)
    | _, _ => none

/-- `ZPAD` (R144): the fewest zero bytes that make the length a multiple of 16. -/
def zpad (bs : List Byte) : List Byte := bs ++ List.replicate ((16 - bs.length % 16) % 16) 0

/-- `ZSTRIP` (R145): without every trailing zero byte. -/
def zstrip (bs : List Byte) : List Byte := (bs.reverse.dropWhile fun v => v == 0).reverse

/-- Consecutive pieces of `n` bytes, the last one shorter if it must be; `fuel` bounds their number. -/
def piecesFuel (n : Nat) : Nat → List Byte → List (List Byte)
  | 0, _ => []
  | fuel + 1, bs => if bs = [] then [] else bs.take n :: piecesFuel n fuel (bs.drop n)

/-- Consecutive pieces of `n` bytes. -/
def pieces (n : Nat) (bs : List Byte) : List (List Byte) := piecesFuel n bs.length bs

/-! ### Host moves as actions -/

/-- Why a procedure stops and produces no output (R140, R143, R150). -/
inductive HostError where
  /-- a command answered this `STATUS.CODE` (R150) -/
  | core (code : Byte)
  /-- `HexDecodeError` (R143, R147) -/
  | hexDecode
  /-- a buffer of the layout does not exist in this `DMEM` (R151 asks for `DMEM_BYTES` >= 0x300); log entry 10 -/
  | noBuffer
deriving DecidableEq, Repr

/-- A host procedure: it takes the machine from state to state and gives a result or a host error. -/
abbrev Proc (α : Type) := State → Except HostError α × State

/-- Do nothing and answer a value. -/
def Proc.done {α : Type} (v : α) : Proc α := fun s => (.ok v, s)

/-- Stop with a host error. -/
def Proc.stop {α : Type} (e : HostError) : Proc α := fun s => (.error e, s)

/-- One procedure after another; a host error stops both. -/
def Proc.andThen {α β : Type} (p : Proc α) (k : α → Proc β) : Proc β := fun s =>
  match p s with
  | (.ok v, t) => k v t
  | (.error e, t) => (.error e, t)

/-- `p`, and `final` after it whatever its outcome (R150: the key is discarded "at its end, whatever the outcome"). The
error of `p` comes before that of `final`. -/
def Proc.finally {α : Type} (p : Proc α) (final : Proc Unit) : Proc α := fun s =>
  match p s with
  | (.ok v, t) => final.andThen (fun _ => .done v) t
  | (.error e, t) => (.error e, (final t).2)

/-- Make one host move; a host access outside `DMEM` is `noBuffer`. -/
def Proc.move (m : HostMove) : Proc Unit := fun s =>
  match serve m s with
  | .next t => (.ok (), t)
  | .fault _ => (.error .noBuffer, s)
  | .refused _ => (.error .noBuffer, s)

/-- Write bytes to a buffer. -/
def Proc.write (a : Nat) (bs : List Byte) : Proc Unit := .move (.writeMem a bs)

/-- Read bytes from a buffer. -/
def Proc.read (a n : Nat) : Proc (List Byte) :=
  (Proc.move (.readMem a n)).andThen fun _ s =>
    match s.reply with
    | .data bs => (.ok bs, s)
    | _ => (.error .noBuffer, s)

/-- Issue a command and stop with its code unless the response carries `OK` (R150). -/
def Proc.command (i : Instr) : Proc Unit :=
  (Proc.move (.command (encode i))).andThen fun _ s =>
    match s.reply with
    | .status w => if w.setWidth 8 = Code.toByte .ok then (.ok (), s) else (.error (.core (w.setWidth 8)), s)
    | _ => (.error .noBuffer, s)

/-- Run an action on each piece in order and join the bytes. -/
def Proc.forPieces (act : List Byte → Proc (List Byte)) : List (List Byte) → Proc (List Byte)
  | [] => .done []
  | p :: rest => (act p).andThen fun out => (Proc.forPieces act rest).andThen fun more => .done (out ++ more)

/-! ### The buffer layout of R151 -/

/-- `KEYBUF` (R151). -/
def keyBuf : Nat := 0x0000
/-- `IVBUF` (R151). -/
def ivBuf : Nat := 0x0020
/-- `INBUF` (R151). -/
def inBuf : Nat := 0x0100
/-- `OUTBUF` (R151). -/
def outBuf : Nat := 0x0200
/-- `BUFLEN` (R151). -/
def bufLen : Nat := 256

/-! ### The four procedures -/

/-- Write the key and run `BC.KEY` (R146, R147). -/
def blockSetup (key : List Byte) : Proc Unit :=
  (Proc.write keyBuf key).andThen fun _ => .command (.bcKey keyBuf key.length)

/-- One block through `BC.ENC` or `BC.DEC` by way of the buffers (R146, R147). -/
def blockAction (i : Instr) (block : List Byte) : Proc (List Byte) :=
  (Proc.write inBuf block).andThen fun _ => (Proc.command i).andThen fun _ => Proc.read outBuf 16

/-- `BLOCK_ENCRYPT(key, plaintext)` (R146). -/
def blockEncrypt (key plaintext : List Byte) : Proc (List Char) :=
  (blockSetup key).andThen fun _ =>
    ((Proc.forPieces (blockAction (.bcEnc inBuf outBuf)) (pieces 16 (zpad plaintext))).finally
      (.command .bcClr)).andThen fun out => .done (hexEnc out)

/-- The ciphertext bytes of `BLOCK_DECRYPT` (R147): a text that is malformed, or not whole blocks, is
`HexDecodeError`. -/
def cipherBlocks (text : List Char) : Proc (List Byte) :=
  match hexDec text with
  | some c => if c.length % 16 = 0 then .done c else .stop .hexDecode
  | none => .stop .hexDecode

/-- `BLOCK_DECRYPT(key, hex text)` (R147). -/
def blockDecrypt (key : List Byte) (text : List Char) : Proc (List Byte) :=
  (blockSetup key).andThen fun _ =>
    (((cipherBlocks text).andThen fun c =>
      Proc.forPieces (blockAction (.bcDec inBuf outBuf)) (pieces 16 c)).finally
        (.command .bcClr)).andThen fun p => .done (zstrip p)

/-- Write the key and the IV and run `SC.INIT` (R148). -/
def streamSetup (key iv : List Byte) : Proc Unit :=
  (Proc.write keyBuf key).andThen fun _ => (Proc.write ivBuf iv).andThen fun _ =>
    .command (.scInit keyBuf key.length ivBuf iv.length)

/-- One piece through `SC.XOR` by way of the buffers (R148). -/
def streamAction (piece : List Byte) : Proc (List Byte) :=
  (Proc.write inBuf piece).andThen fun _ =>
    (Proc.command (.scXor inBuf piece.length outBuf piece.length)).andThen fun _ => Proc.read outBuf piece.length

/-- The pieces of a message through `SC.XOR`, one after another (R148: "any cut points"). -/
def streamPieces (cuts : List (List Byte)) : Proc (List Byte) := Proc.forPieces streamAction cuts

/-- `STREAM_ENCRYPT(key, iv, plaintext)` (R148), cut into pieces of `BUFLEN` bytes. Log entry 15. -/
def streamEncrypt (key iv plaintext : List Byte) : Proc (List Char) :=
  (streamSetup key iv).andThen fun _ =>
    ((streamPieces (pieces bufLen plaintext)).finally (.command .scClr)).andThen fun out => .done (hexEnc out)

/-- The ciphertext bytes of `STREAM_DECRYPT` (R149). -/
def cipherBytes (text : List Char) : Proc (List Byte) :=
  match hexDec text with
  | some c => .done c
  | none => .stop .hexDecode

/-- `STREAM_DECRYPT(key, iv, hex text)` (R149). -/
def streamDecrypt (key iv : List Byte) (text : List Char) : Proc (List Byte) :=
  (streamSetup key iv).andThen fun _ =>
    ((cipherBytes text).andThen fun c => streamPieces (pieces bufLen c)).finally (.command .scClr)

end Sys2Proof.Machine
end

