-- ==== Sys2Proof/Machine/Listing.lean ====
section
/-! DEFINITION. The text form of a command (spec/30_encoding.md R51): the mnemonic, then the operands the command uses,
in the order `A`, `ALEN`, `B`, `BLEN`, separated by commas, numbers in C notation. Text is a list of characters. -/

namespace Sys2Proof.Machine

/-- The mnemonic of a command (R47). -/
def mnemonic : Instr → List Char
  | .bcKey _ _ => ['B', 'C', '.', 'K', 'E', 'Y']
  | .bcEnc _ _ => ['B', 'C', '.', 'E', 'N', 'C']
  | .bcDec _ _ => ['B', 'C', '.', 'D', 'E', 'C']
  | .bcClr => ['B', 'C', '.', 'C', 'L', 'R']
  | .scInit _ _ _ _ => ['S', 'C', '.', 'I', 'N', 'I', 'T']
  | .scXor _ _ _ _ => ['S', 'C', '.', 'X', 'O', 'R']
  | .scClr => ['S', 'C', '.', 'C', 'L', 'R']

/-- The operands that a command uses, in the order of R51. -/
def operands : Instr → List Nat
  | .bcKey a alen => [a, alen]
  | .bcEnc a b => [a, b]
  | .bcDec a b => [a, b]
  | .bcClr => []
  | .scInit a alen b blen => [a, alen, b, blen]
  | .scXor a alen b blen => [a, alen, b, blen]
  | .scClr => []

/-- The command of a mnemonic and its operands; fields that the command does not use "are not written and assemble
to 0" (R51). There are no pseudo-instructions. -/
def assemble (name : List Char) (ops : List Nat) : Option Instr :=
  match name, ops with
  | ['B', 'C', '.', 'K', 'E', 'Y'], [a, alen] => some (.bcKey a alen)
  | ['B', 'C', '.', 'E', 'N', 'C'], [a, b] => some (.bcEnc a b)
  | ['B', 'C', '.', 'D', 'E', 'C'], [a, b] => some (.bcDec a b)
  | ['B', 'C', '.', 'C', 'L', 'R'], [] => some .bcClr
  | ['S', 'C', '.', 'I', 'N', 'I', 'T'], [a, alen, b, blen] => some (.scInit a alen b blen)
  | ['S', 'C', '.', 'X', 'O', 'R'], [a, alen, b, blen] => some (.scXor a alen b blen)
  | ['S', 'C', '.', 'C', 'L', 'R'], [] => some .scClr
  | _, _ => none

/-- The digits of a number in the given base, most significant first. -/
def digitsValue (base : Nat) (acc : Nat) : List Char → Option Nat
  | [] => some acc
  | c :: rest =>
    match hexValue c with
    | some d => if d.toNat < base then digitsValue base (acc * base + d.toNat) rest else none
    | none => none

/-- A number in C notation (R51): `0x` or `0X` and hex digits, a leading 0 and octal digits, or decimal digits. DESIGN CHOICE,
log entry 20. -/
def parseNumber : List Char → Option Nat
  | [] => none
  | '0' :: 'x' :: c :: rest => digitsValue 16 0 (c :: rest)
  | '0' :: 'X' :: c :: rest => digitsValue 16 0 (c :: rest)
  | '0' :: rest => digitsValue 8 0 rest
  | ds => digitsValue 10 0 ds

/-- Text without the spaces around it. -/
def trim (cs : List Char) : List Char :=
  ((cs.dropWhile fun c => c == ' ').reverse.dropWhile fun c => c == ' ').reverse

/-- The parts of a text between commas. -/
def splitCommas (part : List Char) : List Char → List (List Char)
  | [] => [part.reverse]
  | c :: rest => if c = ',' then part.reverse :: splitCommas [] rest else splitCommas (c :: part) rest

/-- The numbers of an operand list. -/
def parseOperands (cs : List Char) : Option (List Nat) :=
  if cs = [] then some [] else (splitCommas [] cs).mapM fun p => parseNumber (trim p)

/-- A line of a listing (R51); a semicolon starts a comment, as in the rule's own examples. -/
def parseLine (line : List Char) : Option Instr :=
  let body := trim (line.takeWhile fun c => !(c == ';'))
  match parseOperands (trim (body.dropWhile fun c => !(c == ' '))) with
  | some ops => assemble (body.takeWhile fun c => !(c == ' ')) ops
  | none => none

/-- A 32-bit number as `0x` and eight hex digits. -/
def hexNumber (n : Nat) : List Char :=
  '0' :: 'x' :: [7, 6, 5, 4, 3, 2, 1, 0].map fun k => hexDigit (BitVec.ofNat 4 (n >>> (4 * k)))

/-- Numbers separated by commas. -/
def joinOperands : List Nat → List Char
  | [] => []
  | [n] => hexNumber n
  | n :: rest => hexNumber n ++ [',', ' '] ++ joinOperands rest

/-- The line of a command (R51). -/
def listing (i : Instr) : List Char :=
  match operands i with
  | [] => mnemonic i
  | ops => mnemonic i ++ [' '] ++ joinOperands ops

end Sys2Proof.Machine
end

