-- ==== Sys2Proof/Safety.lean ====
section
/-! DEFINITION. The terms in which statements speak of safe runs: the invariant of the machine (spec/10_state.md R18,
spec/93_implementation_defined.md U5), the part of the state that can ever be observed (spec/10_state.md R11, R19,
spec/70_reset_and_hazards.md R186), and runs that end without an abort (spec/93_implementation_defined.md U6). -/

namespace Sys2Proof.Machine

/-- The codes that the CORE can produce (R163, U5): 0x00 .. 0x05 and 0x07 .. 0x0A. -/
def coreCodes : List Byte := [0x00, 0x01, 0x02, 0x03, 0x04, 0x05, 0x07, 0x08, 0x09, 0x0A]

/-- The codes that stand in `STATUS.CODE` while `ABORT` = 1: those of the abort class and `Aborted` (R162 to R164). -/
def abortedCodes : List Byte := [0x04, 0x05, 0x09, 0x0A]

/-- What every step keeps: legal parameters (R3), `KS_POS` in 0..16 (R18 (a)), memory in canonical form and inside
`DMEM`, a legal outcome code (U5), and `ABORT` = 1 exactly while the code is one of an abort or `Aborted`. -/
structure State.Inv (s : State) : Prop where
  config : s.cfg.wf = true
  ksPos : s.sce.ksPos ≤ 16
  memCanonical : Memory.wf s.dmem = true
  memInside : Memory.inside s.cfg s.dmem = true
  codeLegal : s.code ∈ coreCodes
  abortCode : s.abort = true ↔ s.code ∈ abortedCodes

/-- Two states that differ at most in registers no rule reads: `RK` while `BK_VALID` = 0, the stream registers while
`SC_VALID` = 0, and the consumed bytes of `KSBUF` (R11, R186). -/
structure State.VisibleEq (s t : State) : Prop where
  cfg : s.cfg = t.cfg
  code : s.code = t.code
  abort : s.abort = t.abort
  dmem : s.dmem = t.dmem
  inbox : s.inbox = t.inbox
  reply : s.reply = t.reply
  draws : s.draws = t.draws
  bkValid : s.bce.valid = t.bce.valid
  scValid : s.sce.valid = t.sce.valid
  rk : s.bce.valid = true → s.bce.rk = t.bce.rk
  x : s.sce.valid = true → s.sce.x = t.sce.x
  c : s.sce.valid = true → s.sce.c = t.sce.c
  carry : s.sce.valid = true → s.sce.carry = t.sce.carry
  ksPos : s.sce.valid = true → s.sce.ksPos = t.sce.ksPos
  pending : s.sce.valid = true → ∀ i, s.sce.ksPos ≤ i → s.sce.ksbuf[i]? = t.sce.ksbuf[i]?

/-- `k` steps from `s` end in `t` with `ABORT` = 0: a completed run in the sense of U6. -/
def CompletedRun (k : Nat) (s t : State) : Prop := Host.Core.run Sys2Proof.core k s = .next t ∧ t.abort = false

/-- A host move that raises `RESET` (R185). -/
def HostMove.resets : HostMove → Bool
  | .reset => true
  | .powerOn => true
  | _ => false

/-- The stream state after `n` keystream bytes have been taken, a chunk extracted whenever a byte is needed and none is
pending (R125, R126). -/
def streamAfter (cfg : Config) (e : Sce) : Nat → Sce
  | 0 => e
  | n + 1 => streamAfter cfg (advance (refill cfg e)) n

/-- Keystream byte number `p`, counted from 0, that a stream state gives next (R126). -/
def keystreamByte (cfg : Config) (e : Sce) (p : Nat) : Byte := ksByte (refill cfg (streamAfter cfg e p))

/-- The stream state after `m` extractions (R115). -/
def extractions (cfg : Config) (e : Sce) : Nat → Sce
  | 0 => e
  | m + 1 => extract cfg (extractions cfg e m)

/-- `NEXTSTATE` executed `m` times (R111). -/
def advances (cfg : Config) (e : Sce) : Nat → Sce
  | 0 => e
  | m + 1 => nextState cfg (advances cfg e m)

/-- The address range that a command reads (R34), as start and length; `SC.INIT` also reads the range of `readRange2`. -/
def readRange : Instr → Nat × Nat
  | .bcKey a alen => (a, alen)
  | .bcEnc a _ => (a, 16)
  | .bcDec a _ => (a, 16)
  | .bcClr => (0, 0)
  | .scInit a _ _ _ => (a, 16)
  | .scXor a alen _ _ => (a, alen)
  | .scClr => (0, 0)

/-- The second address range that a command reads (R34): the IV of `SC.INIT`. -/
def readRange2 : Instr → Nat × Nat
  | .scInit _ _ b blen => (b, blen)
  | _ => (0, 0)

/-- The address range that a command writes (R34), as start and length. -/
def writeRange : Instr → Nat × Nat
  | .bcEnc _ b => (b, 16)
  | .bcDec _ b => (b, 16)
  | .scXor _ alen b _ => (b, alen)
  | _ => (0, 0)

/-- The address lies in a range given as start and length. -/
def inSpan (r : Nat × Nat) (c : Nat) : Prop := r.1 ≤ c ∧ c < r.1 + r.2

/-- The command belongs to the block cipher engine (R47: `OP[7:4]` = 1). -/
def isBlockCommand : Instr → Bool
  | .bcKey _ _ => true
  | .bcEnc _ _ => true
  | .bcDec _ _ => true
  | .bcClr => true
  | .scInit _ _ _ _ => false
  | .scXor _ _ _ _ => false
  | .scClr => false

/-- The code that the checks of R175 give a command that reaches execution, in the rule's order; `OK` when none fails. -/
def outcomeCode (i : Instr) (s : State) : Code :=
  if s.abort then .aborted
  else match i with
  | .bcKey a alen =>
    if s.cfg.dmemBytes < a + alen then .addrRange
    else if alen ≠ 16 ∧ alen ≠ 24 ∧ alen ≠ 32 then .invalidKeySize else .ok
  | .bcEnc a b =>
    if s.bce.valid = false then .notReady
    else if s.cfg.dmemBytes < a + 16 ∨ s.cfg.dmemBytes < b + 16 then .addrRange else .ok
  | .bcDec a b =>
    if s.bce.valid = false then .notReady
    else if s.cfg.dmemBytes < a + 16 ∨ s.cfg.dmemBytes < b + 16 then .addrRange else .ok
  | .bcClr => .ok
  | .scInit a alen b blen =>
    if s.cfg.dmemBytes < a + alen ∨ s.cfg.dmemBytes < b + blen then .addrRange
    else if alen ≠ 16 then .invalidKeyLength
    else if blen ≠ 0 ∧ blen ≠ 8 then .invalidIVLength else .ok
  | .scXor a alen b blen =>
    if s.sce.valid = false then .notReady
    else if s.cfg.dmemBytes < a + alen ∨ s.cfg.dmemBytes < b + blen then .addrRange
    else if blen < alen then .bufferTooSmall
    else if 0 < alen ∧ a < b + blen ∧ b < a + alen ∧ a ≠ b then .overlappingBuffers else .ok
  | .scClr => .ok

/-- The code that the checks of R175 give a descriptor, from the first on: `Aborted`, then `IllegalCommand`, then those of the
command it encodes; `OK` when none fails. -/
def descriptorCode (w : Cmd5) (s : State) : Code :=
  if s.abort then .aborted
  else match decode w with
  | .ok i => outcomeCode i s
  | .error _ => .illegalCommand

/-- The codes of the abort class (R163). -/
def Code.isAbort : Code → Bool
  | .bufferTooSmall => true
  | .overlappingBuffers => true
  | .addrRange => true
  | _ => false

/-- The state right after a command that ended without success (R161, R162): the code, the latch for an abort, nothing
else. -/
def State.turnedAway (s : State) (k : Code) : State := { s with code := k.toByte, abort := s.abort || k.isAbort }

/-- A machine on which the procedures of R146 to R149 can run: the invariant, no abort recorded, and room for the layout
of R151. -/
structure State.Usable (s : State) : Prop where
  inv : s.Inv
  notAborted : s.abort = false
  room : 0x300 ≤ s.cfg.dmemBytes

/-- The 256-bit number of eight words, lane 0 least significant. -/
def lanesValue (v : Vector Word 8) : Nat :=
  v[0].toNat + 2 ^ 32 * v[1].toNat + 2 ^ 64 * v[2].toNat + 2 ^ 96 * v[3].toNat
    + 2 ^ 128 * v[4].toNat + 2 ^ 160 * v[5].toNat + 2 ^ 192 * v[6].toNat + 2 ^ 224 * v[7].toNat

end Sys2Proof.Machine
end

