-- ==== Sys2Proof/Certificates/Slice0/Obligations.lean ====
section
/-! DEFINITION. The statements about the CORE, each formalising rules of spec/ or resting on the sections named in
OBLIGATIONS.json. -/

open Sys2Proof Sys2Proof.Machine

/-! ### Encoding -/

/-- Decoding the byte form of an encoded well-formed command gives the command back (R45 to R48). -/
def Obligations.DecodeOfEncodeGivesTheCommand : Prop :=
  ∀ i : Instr, i.wellFormed = true → decodeBytes (encodeBytes i) = .ok i

/-- A descriptor that decodes is the encoding of exactly that well-formed command: no bit is dropped (R45 to R49). -/
def Obligations.EncodeOfDecodeGivesTheDescriptor : Prop :=
  ∀ (c : Cmd5) (i : Instr), decode c = .ok i → i.wellFormed = true ∧ encode i = c

/-- R49: a descriptor is illegal exactly when the opcode is unknown, `RSV` is not 0 or a must-be-zero field is not 0, and
an illegal descriptor changes nothing but `STATUS.CODE`, which becomes `IllegalCommand` (`Aborted` comes first, R164). -/
def Obligations.IllegalDescriptorsFailAndChangeOnlyTheCode : Prop :=
  (∀ c : Cmd5, (∃ e, decode c = .error e) ↔
    (c.op ∉ [0x10, 0x11, 0x12, 0x13, 0x20, 0x21, 0x22] ∨ c.rsv ≠ 0 ∨
      (c.op = 0x10 ∧ (c.w3 ≠ 0 ∨ c.w4 ≠ 0)) ∨
      ((c.op = 0x11 ∨ c.op = 0x12) ∧ (c.w2 ≠ 0 ∨ c.w4 ≠ 0)) ∨
      ((c.op = 0x13 ∨ c.op = 0x22) ∧ (c.w1 ≠ 0 ∨ c.w2 ≠ 0 ∨ c.w3 ≠ 0 ∨ c.w4 ≠ 0)))) ∧
  (∀ (c : Cmd5) (e : Illegal) (s : State), decode c = .error e → s.abort = false →
    runDescriptor c s = .next { s with code := 0x07 })

/-- The words of vector V42 decode as it says. -/
def Obligations.SampleDescriptorsDecode : Prop :=
  decode ⟨0x00000010, 0x00000000, 0x00000010, 0x00000000, 0x00000000⟩ = .ok (.bcKey 0x0000 16) ∧
  decode ⟨0x00000011, 0x00000100, 0x00000000, 0x00000200, 0x00000000⟩ = .ok (.bcEnc 0x0100 0x0200) ∧
  decode ⟨0x00000012, 0x00000200, 0x00000000, 0x00000200, 0x00000000⟩ = .ok (.bcDec 0x0200 0x0200) ∧
  decode ⟨0x00000013, 0x00000000, 0x00000000, 0x00000000, 0x00000000⟩ = .ok .bcClr ∧
  decode ⟨0x00000020, 0x00000000, 0x00000010, 0x00000020, 0x00000008⟩ = .ok (.scInit 0x0000 16 0x0020 8) ∧
  decode ⟨0x00000021, 0x00000105, 0x00000014, 0x00000205, 0x00000020⟩ = .ok (.scXor 0x0105 20 0x0205 32) ∧
  decode ⟨0x00000022, 0x00000000, 0x00000000, 0x00000000, 0x00000000⟩ = .ok .scClr ∧
  decode ⟨0x00000000, 0x00000000, 0x00000000, 0x00000000, 0x00000000⟩ = .error .unknownOpcode ∧
  decode ⟨0x00000030, 0x00000000, 0x00000000, 0x00000000, 0x00000000⟩ = .error .unknownOpcode ∧
  decode ⟨0x00000111, 0x00000100, 0x00000000, 0x00000200, 0x00000000⟩ = .error .reservedNotZero ∧
  decode ⟨0x00000010, 0x00000000, 0x00000010, 0x00000004, 0x00000000⟩ = .error .operandNotZero ∧
  decode ⟨0x00000010, 0x00000000, 0x0000000a, 0x00000000, 0x00000000⟩ = .ok (.bcKey 0 10)

/-- The text form of a well-formed command assembles back to it (R51). -/
def Obligations.ListingAssemblesBack : Prop :=
  ∀ i : Instr, i.wellFormed = true → parseLine (listing i) = some i

/-! ### The step and the host link -/

/-- When the next host move is a descriptor, the step executes it on the state without the move, `exec` of the command it
decodes to, and answers with the response of R52: the `STATUS` word as it stands after the command. -/
def Obligations.StepRunsTheDecodedCommand : Prop :=
  ∀ (s : State) (w : Cmd5) (rest : List HostMove), s.inbox = .command w :: rest →
    ∃ t, runDescriptor w { s with inbox := rest } = .next t ∧
      step s = .next { t with reply := .status t.statusWord } ∧
      ∀ i : Instr, decode w = .ok i → exec i { s with inbox := rest } = .next t

/-- R164: while `ABORT` = 1 every descriptor, legal or not, does nothing but `STATUS.CODE <- Aborted`. -/
def Obligations.AbortedRefusesEveryDescriptor : Prop :=
  ∀ (c : Cmd5) (s : State), s.abort = true → runDescriptor c s = .next { s with code := 0x0A }

/-- With no host move waiting the machine does nothing (R176; that the step answers the same state is the model's, log
entry 8); a host read or write inside `DMEM` is served without touching either engine (R33), and one that passes the end of
`DMEM` stops the run (the model's, log entry 10). -/
def Obligations.HostMovesLeaveTheEnginesAlone : Prop :=
  (∀ s : State, s.inbox = [] → step s = .next s) ∧
  (∀ (s : State) (a n : Nat), a + n ≤ s.cfg.dmemBytes →
    serve (.readMem a n) s = .next { s with reply := .data (memReadBytes s.dmem a n) }) ∧
  (∀ (s : State) (a : Nat) (bs : List Byte), a + bs.length ≤ s.cfg.dmemBytes →
    ∃ t, serve (.writeMem a bs) s = .next t ∧ t.bce = s.bce ∧ t.sce = s.sce ∧ t.code = s.code ∧ t.abort = s.abort ∧
      t.cfg = s.cfg ∧ t.inbox = s.inbox ∧ t.draws = s.draws ∧
      (∀ c, c < a ∨ a + bs.length ≤ c → memRead t.dmem c = memRead s.dmem c) ∧
      (Memory.wf s.dmem = true → memReadBytes t.dmem a bs.length = bs)) ∧
  (∀ (s : State) (a n : Nat), s.cfg.dmemBytes < a + n → serve (.readMem a n) s = .fault (.hostAddress a n)) ∧
  (∀ (s : State) (a : Nat) (bs : List Byte), s.cfg.dmemBytes < a + bs.length →
    serve (.writeMem a bs) s = .fault (.hostAddress a bs.length))

/-! ### The commands: where each completes, and what it leaves alone -/

/-- `BC.KEY` completes (R80): with an in-range key of legal length and no abort recorded, `RK` is the expansion of the
key bytes, `BK_VALID` is 1, the code is `OK`, and nothing else changes. -/
def Obligations.BcKeyCompletes : Prop :=
  ∀ (s : State) (a alen : Nat), s.abort = false → a + alen ≤ s.cfg.dmemBytes → (alen = 16 ∨ alen = 24 ∨ alen = 32) →
    exec (.bcKey a alen) s = .next { s with
      bce := { rk := roundKeys (memReadBytes s.dmem a alen), valid := true }
      code := 0x00 }

/-- `BC.ENC` completes (R92): the 16 bytes at `b` become `ENC_BLOCK` of the 16 bytes that stood at `a`, every other byte
and every register is unchanged. Source and destination may overlap in any way. -/
def Obligations.BcEncCompletes : Prop :=
  ∀ (s : State) (a b : Nat), s.abort = false → s.bce.valid = true → a + 16 ≤ s.cfg.dmemBytes →
    b + 16 ≤ s.cfg.dmemBytes → Memory.wf s.dmem = true →
    ∃ t, exec (.bcEnc a b) s = .next t ∧
      memReadBytes t.dmem b 16 = quadBytes (encBlock s.bce.rk (quadOfBytes (memReadBytes s.dmem a 16))) ∧
      (∀ c, c < b ∨ b + 16 ≤ c → memRead t.dmem c = memRead s.dmem c) ∧
      t = { s with dmem := t.dmem, code := 0x00 }

/-- `BC.DEC` completes (R93): as `BC.ENC`, with `DEC_BLOCK`. -/
def Obligations.BcDecCompletes : Prop :=
  ∀ (s : State) (a b : Nat), s.abort = false → s.bce.valid = true → a + 16 ≤ s.cfg.dmemBytes →
    b + 16 ≤ s.cfg.dmemBytes → Memory.wf s.dmem = true →
    ∃ t, exec (.bcDec a b) s = .next t ∧
      memReadBytes t.dmem b 16 = quadBytes (decBlock s.bce.rk (quadOfBytes (memReadBytes s.dmem a 16))) ∧
      (∀ c, c < b ∨ b + 16 ≤ c → memRead t.dmem c = memRead s.dmem c) ∧
      t = { s with dmem := t.dmem, code := 0x00 }

/-- `BC.CLR` completes (R94): `BK_VALID` becomes 0, and only `RK` (unspecified), the code and the model's draw counter may
change with it (the counter is the model's, log entry 6); with `BK_VALID` = 0 already, nothing but the code changes
(R10 and R18 (b) against R94: the model's choice, log entries 7, 12). -/
def Obligations.BcClrCompletes : Prop :=
  ∀ s : State, s.abort = false →
    ∃ t, exec .bcClr s = .next t ∧ t.bce.valid = false ∧
      t = { s with bce := t.bce, code := 0x00, draws := t.draws } ∧
      (s.bce.valid = false → t = { s with code := 0x00 })

/-- `SC.INIT` completes (R105): key setup and IV setup from the bytes in memory (eight zero bytes for an absent IV), the
pending keystream empty, `SC_VALID` 1, code `OK`; everything outside the engine unchanged. That `KSBUF` keeps its
(consumed) bytes is the model's reading (log entry 13). -/
def Obligations.ScInitCompletes : Prop :=
  ∀ (s : State) (a b blen : Nat), s.abort = false → a + 16 ≤ s.cfg.dmemBytes → b + blen ≤ s.cfg.dmemBytes →
    (blen = 0 ∨ blen = 8) →
    ∃ t, exec (.scInit a 16 b blen) s = .next t ∧
      (let iv := if blen = 8 then memReadBytes s.dmem b 8 else [0, 0, 0, 0, 0, 0, 0, 0]
       let e := ivSetup s.cfg iv (keySetup s.cfg (memReadBytes s.dmem a 16) s.sce)
       t.sce = { x := e.x, c := e.c, carry := e.carry, ksbuf := s.sce.ksbuf, ksPos := 16, valid := true }) ∧
      t = { s with sce := t.sce, code := 0x00 }

/-- `SC.XOR` completes (R125): destination byte `p` is source byte `p` XOR keystream byte `p`, for every `p < alen`; every
other byte of memory is unchanged, the spare capacity among them; the stream state has moved on by `alen` bytes; nothing
else changes but the code. The ranges are disjoint or start at the same address. -/
def Obligations.ScXorCompletes : Prop :=
  ∀ (s : State) (a alen b blen : Nat), s.abort = false → s.sce.valid = true → a + alen ≤ s.cfg.dmemBytes →
    b + blen ≤ s.cfg.dmemBytes → alen ≤ blen → (alen = 0 ∨ a = b ∨ b + blen ≤ a ∨ a + alen ≤ b) →
    Memory.wf s.dmem = true →
    ∃ t, exec (.scXor a alen b blen) s = .next t ∧
      (∀ p, p < alen → memRead t.dmem (b + p) = memRead s.dmem (a + p) ^^^ keystreamByte s.cfg s.sce p) ∧
      (∀ c, c < b ∨ b + alen ≤ c → memRead t.dmem c = memRead s.dmem c) ∧
      t.sce = streamAfter s.cfg s.sce alen ∧
      t = { s with sce := t.sce, dmem := t.dmem, code := 0x00 }

/-- `SC.CLR` completes (R128): `SC_VALID` becomes 0, the other stream registers are unspecified with `KS_POS` within 0..16,
`STATUS.KS_PENDING` reads 0, and nothing else changes but the code and the model's draw counter (log entry 6). -/
def Obligations.ScClrCompletes : Prop :=
  ∀ s : State, s.abort = false →
    ∃ t, exec .scClr s = .next t ∧ t.sce.valid = false ∧ t.sce.ksPos ≤ 16 ∧ t.sce.pending = 0 ∧
      t = { s with sce := t.sce, code := 0x00, draws := t.draws }

/-- `BC.KEY` from its descriptor on (R80): its checks in order, and its transform. -/
def Obligations.BcKeyDescriptorFollowsItsRule : Prop :=
  ∀ (c : Cmd5) (s : State), c.op = 0x10 →
    runDescriptor c s = .next (
      let a := c.w1.toNat
      let alen := c.w2.toNat
      if s.abort = true then { s with code := 0x0A }
      else if c.rsv ≠ 0 ∨ c.w3 ≠ 0 ∨ c.w4 ≠ 0 then { s with code := 0x07 }
      else if s.cfg.dmemBytes < a + alen then { s with code := 0x09, abort := true }
      else if alen ≠ 16 ∧ alen ≠ 24 ∧ alen ≠ 32 then { s with code := 0x01 }
      else { s with bce := { rk := roundKeys (memReadBytes s.dmem a alen), valid := true }, code := 0x00 })

/-- `BC.ENC` and `BC.DEC` from the descriptor on (R92, R93): the checks in order, then all 16 bytes read, transformed and
written. -/
def Obligations.BlockDescriptorsFollowTheirRules : Prop :=
  ∀ (c : Cmd5) (s : State), (c.op = 0x11 ∨ c.op = 0x12) →
    runDescriptor c s = .next (
      let a := c.w1.toNat
      let b := c.w3.toNat
      if s.abort = true then { s with code := 0x0A }
      else if c.rsv ≠ 0 ∨ c.w2 ≠ 0 ∨ c.w4 ≠ 0 then { s with code := 0x07 }
      else if s.bce.valid = false then { s with code := 0x08 }
      else if s.cfg.dmemBytes < a + 16 ∨ s.cfg.dmemBytes < b + 16 then { s with code := 0x09, abort := true }
      else
        let r := quadOfBytes (memReadBytes s.dmem a 16)
        let out := if c.op = 0x11 then encBlock s.bce.rk r else decBlock s.bce.rk r
        { s with dmem := memWriteBytes s.dmem b (quadBytes out), code := 0x00 })

/-- `SC.INIT` from its descriptor on (R105): its checks in order, key before IV, then the setup. That `KSBUF` keeps its
(consumed) bytes is the model's reading (log entry 13). -/
def Obligations.ScInitDescriptorFollowsItsRule : Prop :=
  ∀ (c : Cmd5) (s : State), c.op = 0x20 →
    runDescriptor c s = .next (
      let a := c.w1.toNat
      let alen := c.w2.toNat
      let b := c.w3.toNat
      let blen := c.w4.toNat
      if s.abort = true then { s with code := 0x0A }
      else if c.rsv ≠ 0 then { s with code := 0x07 }
      else if s.cfg.dmemBytes < a + alen ∨ s.cfg.dmemBytes < b + blen then { s with code := 0x09, abort := true }
      else if alen ≠ 16 then { s with code := 0x02 }
      else if blen ≠ 0 ∧ blen ≠ 8 then { s with code := 0x03 }
      else
        let iv := if blen = 8 then memReadBytes s.dmem b 8 else [0, 0, 0, 0, 0, 0, 0, 0]
        let e := ivSetup s.cfg iv (keySetup s.cfg (memReadBytes s.dmem a 16) s.sce)
        { s with sce := { e with ksPos := 16, valid := true }, code := 0x00 })

/-- R175: a descriptor's checks are made in the fixed order and the first that fails is reported; a command that ends
without success changes nothing but `STATUS.CODE` and, for a code of the abort class, `ABORT`. -/
def Obligations.CommandsReportTheFirstFailingCheck : Prop :=
  ∀ (w : Cmd5) (s : State), ∃ t, runDescriptor w s = .next t ∧ t.code = (descriptorCode w s).toByte ∧
    (descriptorCode w s ≠ .ok → t = s.turnedAway (descriptorCode w s))

/-- A command that ends with a code other than `OK` changes nothing else but possibly `ABORT`, and it sets `ABORT` only
with a code of the abort class (R161, R162, R18 (d)). -/
def Obligations.FailedCommandsChangeNothingElse : Prop :=
  ∀ (c : Cmd5) (s t : State), runDescriptor c s = .next t → t.code ≠ 0x00 →
    t = { s with code := t.code, abort := t.abort } ∧
    (t.abort ≠ s.abort → t.abort = true ∧ (t.code = 0x04 ∨ t.code = 0x05 ∨ t.code = 0x09))

/-- The frame of every command (R34, R18): a block command leaves the stream engine alone and a stream command the block
engine; only `BC.KEY` and `BC.CLR` change the round keys, only the stream commands the stream registers; no byte outside
the command's write range changes, for the five commands that store nothing no byte at all; the parameters and the host's
moves stay. -/
def Obligations.CommandsKeepTheirFrame : Prop :=
  ∀ (i : Instr) (s t : State), exec i s = .next t →
    t.cfg = s.cfg ∧ t.inbox = s.inbox ∧ t.reply = s.reply ∧
    (isBlockCommand i = true → t.sce = s.sce) ∧ (isBlockCommand i = false → t.bce = s.bce) ∧
    ((∀ a alen, i ≠ .bcKey a alen) → i ≠ .bcClr → t.bce = s.bce) ∧
    (i ≠ .bcClr → i ≠ .scClr → t.draws = s.draws) ∧
    (∀ c, ¬ inSpan (writeRange i) c → memRead t.dmem c = memRead s.dmem c)

/-- A command depends on no byte outside its read ranges (R34): with two memories that agree there, it ends with the same
code, the same latch and the same registers, and the two memories agree afterwards wherever they agreed before and on
every byte the command wrote. -/
def Obligations.CommandsReadOnlyTheirFootprint : Prop :=
  ∀ (i : Instr) (s t : State) (m : List Host.Cell), exec i s = .next t →
    Memory.wf s.dmem = true → Memory.wf m = true →
    (∀ c, inSpan (readRange i) c ∨ inSpan (readRange2 i) c → memRead m c = memRead s.dmem c) →
    ∃ t', exec i { s with dmem := m } = .next t' ∧ t' = { t with dmem := t'.dmem } ∧
      (∀ c, memRead m c = memRead s.dmem c → memRead t'.dmem c = memRead t.dmem c) ∧
      (t.code = 0x00 → ∀ c, inSpan (writeRange i) c → memRead t'.dmem c = memRead t.dmem c)

/-- The two engines are independent (R18 (e)): what a block command does is the same whatever the stream engine holds,
and what a stream command does is the same whatever the block engine holds. -/
def Obligations.EnginesAreIndependent : Prop :=
  (∀ (i : Instr) (s t : State) (e : Sce), isBlockCommand i = true → exec i s = .next t →
    exec i { s with sce := e } = .next { t with sce := e }) ∧
  (∀ (i : Instr) (s t : State) (e : Bce), isBlockCommand i = false → exec i s = .next t →
    exec i { s with bce := e } = .next { t with bce := e })

/-! ### Status, abort, reset -/

/-- The `STATUS` word, field by field (R13). -/
def Obligations.StatusWordShowsItsFields : Prop :=
  ∀ s : State,
    s.statusWord.extractLsb' 0 8 = s.code ∧
    s.statusWord.getLsbD 8 = s.abort ∧
    s.statusWord.getLsbD 9 = s.bce.valid ∧
    s.statusWord.getLsbD 10 = s.sce.valid ∧
    s.statusWord.extractLsb' 11 5 = 0 ∧
    (s.statusWord.extractLsb' 16 5).toNat = (if s.sce.valid = true then 16 - s.sce.ksPos else 0) ∧
    s.statusWord.extractLsb' 21 11 = 0

/-- `ABORT` is sticky (R162, R14, R178): from an aborted state no step but a `RESET` clears it, and until then neither
engine changes; memory changes only by a host write. -/
def Obligations.OnlyResetLeavesTheAbortedCondition : Prop :=
  ∀ (s t : State) (move : HostMove), s.abort = true → serve move s = .next t → move.resets = false →
    t.abort = true ∧ t.bce = s.bce ∧ t.sce = s.sce ∧
    ((∀ a bs, move ≠ .writeMem a bs) → t.dmem = s.dmem)

/-- `RESET` raised by the host (R185): both valid flags, `ABORT` and the code are cleared, `STATUS` reads 0, `KS_POS` is
within 0..16, `DMEM` is unchanged; and the machine after power-on reads `STATUS` 0. -/
def Obligations.ResetClearsFlagsAndKeepsMemory : Prop :=
  (∀ s : State, ∃ t, serve .reset s = .next t ∧ t.bce.valid = false ∧ t.sce.valid = false ∧ t.abort = false ∧
    t.code = 0x00 ∧ t.statusWord = 0x00000000 ∧ t.sce.ksPos ≤ 16 ∧ t.dmem = s.dmem ∧ t.cfg = s.cfg) ∧
  (∀ s : State, ∃ t, serve .powerOn s = .next t ∧ t.bce.valid = false ∧ t.sce.valid = false ∧ t.abort = false ∧
    t.code = 0x00 ∧ t.statusWord = 0x00000000 ∧ t.sce.ksPos ≤ 16 ∧ t.cfg = s.cfg) ∧
  State.reset.statusWord = 0x00000000

/-- The invariant holds right after power-on. -/
def Obligations.InvariantHoldsAtReset : Prop := State.reset.Inv

/-- Every step keeps the invariant: `KS_POS` within 0..16 (R18 (a)), the code one that the CORE produces (U5), `ABORT`
exactly with a code of an abort or `Aborted`, memory in canonical form and inside `DMEM` (the form is the model's, log
entry 5). -/
def Obligations.EveryStepKeepsTheInvariant : Prop :=
  ∀ s t : State, s.Inv → step s = .next t → t.Inv

/-- No unspecified register value ever reaches `DMEM` or `STATUS` (R186): two states that differ only in registers no
rule reads answer every step alike and again differ only there. The spec derives R186 from R185, R10 and R11. -/
def Obligations.UnspecifiedRegistersAreNeverObserved : Prop :=
  ∀ s t : State, s.VisibleEq t →
    s.statusWord = t.statusWord ∧
    (∀ s', step s = .next s' → ∃ t', step t = .next t' ∧ s'.VisibleEq t') ∧
    (∀ r, step s = .fault r → step t = .fault r)

/-! ### Memory -/

/-- `DMEM` is plain storage (R30): a read gives the last byte written, a write changes that byte only; and two memories in
canonical form that read alike at every address are equal data (the model's, log entry 5). -/
def Obligations.MemoryIsPlainStorage : Prop :=
  (∀ (m : List Host.Cell) (a : Nat) (v : Byte), Memory.wf m = true →
    memRead (memWrite m a v) a = v ∧ Memory.wf (memWrite m a v) = true ∧
    ∀ c, c ≠ a → memRead (memWrite m a v) c = memRead m c) ∧
  (∀ m m' : List Host.Cell, Memory.wf m = true → Memory.wf m' = true → (∀ a, memRead m a = memRead m' a) → m = m')

/-! ### The block cipher -/

/-- The substitution function works bit position by bit position, the first word carrying bit 0 (R62; which word carries
which bit the spec marks as its own reading, "confirmed by the block known-answer vector"). -/
def Obligations.SubstitutionActsOnEachBitPosition : Prop :=
  ∀ (k : Fin 8) (q : Quad) (j : Nat), j < 32 →
    (let n := (q.r0.getLsbD j).toNat + 2 * (q.r1.getLsbD j).toNat + 4 * (q.r2.getLsbD j).toNat + 8 * (q.r3.getLsbD j).toNat
     let m := sbox k (BitVec.ofNat 4 n)
     (subst k q).r0.getLsbD j = m.getLsbD 0 ∧ (subst k q).r1.getLsbD j = m.getLsbD 1 ∧
     (subst k q).r2.getLsbD j = m.getLsbD 2 ∧ (subst k q).r3.getLsbD j = m.getLsbD 3)

/-- The written inverse tables invert the tables, and the substitution functions and their inverses undo each
other on all words (R61, R63, which the spec derives from R60 and R62). -/
def Obligations.SubstitutionAndInverseCancel : Prop :=
  (∀ (k : Fin 8) (n : BitVec 4), sboxInv k (sbox k n) = n ∧ sbox k (sboxInv k n) = n) ∧
  ∀ (k : Fin 8) (q : Quad), substInv k (subst k q) = q ∧ subst k (substInv k q) = q

/-- The diffusion transform and its inverse undo each other, on all words (R65, which the spec derives from R64); and the
transform is linear over XOR (R64). -/
def Obligations.DiffusionAndInverseCancel : Prop :=
  (∀ q : Quad, diffuseInv (diffuse q) = q ∧ diffuse (diffuseInv q) = q) ∧
  (∀ p q : Quad, diffuse (p.xor q) = (diffuse p).xor (diffuse q))

/-- R81: the packed words of a key of legal length: the key words in order, the marker 1, zeros. -/
def Obligations.PackPlacesKeyWordsAndMarker : Prop :=
  ∀ key : List Byte, (key.length = 16 ∨ key.length = 24 ∨ key.length = 32) →
    (pack key).length = 8 ∧
    (∀ j, j < key.length / 4 → (pack key)[j]? = some
      (le32 (key.getD (4 * j) 0) (key.getD (4 * j + 1) 0) (key.getD (4 * j + 2) 0) (key.getD (4 * j + 3) 0))) ∧
    (key.length / 4 < 8 → (pack key)[key.length / 4]? = some 1) ∧
    (∀ j, key.length / 4 < j → j < 8 → (pack key)[j]? = some 0)

/-- R82: the recurrence holds at every index 8 .. 139, and the packed words stand below it. -/
def Obligations.ExpandFollowsTheRecurrence : Prop :=
  ∀ w : List Word, w.length = 8 →
    (expand w).length = 140 ∧ (∀ j, j < 8 → (expand w).getD j 0 = w.getD j 0) ∧
    (∀ i, 8 ≤ i → i ≤ 139 → (expand w).getD i 0 =
      rotl32 ((expand w).getD (i - 8) 0 ^^^ (expand w).getD (i - 5) 0 ^^^ (expand w).getD (i - 3) 0
        ^^^ (expand w).getD (i - 1) 0 ^^^ 0x9e3779b9 ^^^ BitVec.ofNat 32 (i - 8)) 11)

/-- R83: round subkey `g` is the image of raw words `W[8+4g .. 11+4g]` under `S_((3 - g) mod 8)`. -/
def Obligations.RoundKeysAreSubstitutedGroups : Prop :=
  ∀ (key : List Byte) (g : Fin 33), ∃ k : Fin 8, (k.val : Int) = (3 - (g.val : Int)) % 8 ∧
    (let w := expand (pack key)
     subkey (roundKeys key) g = subst k ⟨w.getD (8 + 4 * g.val) 0, w.getD (9 + 4 * g.val) 0,
       w.getD (10 + 4 * g.val) 0, w.getD (11 + 4 * g.val) 0⟩)

/-- `BC.KEY` is a pure function of the key bytes, on any instance and after any history; and a 16-byte key and its 32-byte
extension by the marker give the same round keys (R84, which the spec derives from R81 and R82). -/
def Obligations.KeyScheduleIsAFunctionOfTheKeyBytes : Prop :=
  (∀ (s s' t t' : State) (a a' alen : Nat), exec (.bcKey a alen) s = .next t → exec (.bcKey a' alen) s' = .next t' →
    t.code = 0x00 → t'.code = 0x00 → memReadBytes s.dmem a alen = memReadBytes s'.dmem a' alen →
    t.bce = t'.bce) ∧
  (∀ key : List Byte, key.length = 16 →
    roundKeys (key ++ [1, 0, 0, 0] ++ List.replicate 12 0) = roundKeys key)

/-- R90: `ENC_BLOCK` is 32 rounds of key mixing, substitution and diffusion, none after round 31, then whitening. -/
def Obligations.EncBlockIsThirtyTwoRounds : Prop :=
  ∀ (rk : Vector Word 132) (r : Quad), ∃ rounds : List Quad, rounds.length = 33 ∧
    rounds[0]? = some r ∧
    (∀ i : Fin 32, ∃ p q, rounds[i.val]? = some p ∧ rounds[i.val + 1]? = some q ∧
      (let mixed := subst ⟨i.val % 8, Nat.mod_lt _ (by decide)⟩ (p.xor
        ⟨rk[4 * i.val], rk[4 * i.val + 1], rk[4 * i.val + 2], rk[4 * i.val + 3]⟩)
       q = if i.val = 31 then mixed else diffuse mixed)) ∧
    (∃ last, rounds[32]? = some last ∧ encBlock rk r = last.xor ⟨rk[128], rk[129], rk[130], rk[131]⟩)

/-- `ENC_BLOCK` and `DEC_BLOCK` are inverse bijections on four words, for every round-key set (R95, which the spec derives
from R90 and R91). -/
def Obligations.BlockFunctionsAreInverse : Prop :=
  ∀ (rk : Vector Word 132) (r : Quad), decBlock rk (encBlock rk r) = r ∧ encBlock rk (decBlock rk r) = r

/-- On the machine: `BC.DEC` of what `BC.ENC` stored, anywhere in range, restores the block that was encrypted (R93). -/
def Obligations.DecryptingAnEncryptedBlockRestoresIt : Prop :=
  ∀ (s t : State) (a b d : Nat), Memory.wf s.dmem = true → exec (.bcEnc a b) s = .next t → t.code = 0x00 →
    d + 16 ≤ s.cfg.dmemBytes →
    ∃ u, exec (.bcDec b d) t = .next u ∧ u.code = 0x00 ∧
      memReadBytes u.dmem d 16 = memReadBytes s.dmem a 16

/-! ### The stream cipher -/

/-- R112: the counter update threads one bit through the lanes in order, in both modes, and keeps lane 7's bit as the new
`CARRY`. -/
def Obligations.CounterUpdateThreadsTheCarry : Prop :=
  ∀ (a ctr : Vector Word 8) (carry : Bool),
    (∃ b : Fin 9 → Nat, b 0 = carry.toNat ∧ b 8 = (counterUpdate .add a ctr carry).2.toNat ∧
      ∀ j : Fin 8, (counterUpdate .add a ctr carry).1[j].toNat = (ctr[j].toNat + a[j].toNat + b j.castSucc) % 2 ^ 32 ∧
        b j.succ = (ctr[j].toNat + a[j].toNat + b j.castSucc) / 2 ^ 32) ∧
    (∃ b : Fin 9 → Int, b 0 = carry.toNat ∧ b 8 = (counterUpdate .sub a ctr carry).2.toNat ∧
      ∀ j : Fin 8,
        ((counterUpdate .sub a ctr carry).1[j].toNat : Int) = ((ctr[j].toNat : Int) - a[j].toNat - b j.castSucc) % 2 ^ 32 ∧
        b j.succ = if (ctr[j].toNat : Int) - a[j].toNat - b j.castSucc < 0 then 1 else 0)

/-- The counter update as one 256-bit addition or subtraction with carry (from R112). -/
def Obligations.CounterUpdateIsA256BitSum : Prop :=
  ∀ (a ctr : Vector Word 8) (carry : Bool),
    (let r := counterUpdate .add a ctr carry
     lanesValue r.1 + 2 ^ 256 * r.2.toNat = lanesValue ctr + lanesValue a + carry.toNat) ∧
    (let r := counterUpdate .sub a ctr carry
     lanesValue r.1 + lanesValue a + carry.toNat = lanesValue ctr + 2 ^ 256 * r.2.toNat)

/-- R113: `g` is the 32-bit sum squared exactly, its two halves XORed; in `NEXTSTATE` all eight are computed from the old
`X` and the counters just updated, before any `X` word is replaced. -/
def Obligations.GIsTheFoldedSquare : Prop :=
  (∀ x c : Word,
    (let u := (x.toNat + c.toNat) % 2 ^ 32
     (gValue x c).toNat = (u * u % 2 ^ 32) ^^^ (u * u / 2 ^ 32))) ∧
  ∀ (cfg : Config) (e : Sce), ∃ g : Vector Word 8,
    (∀ j : Fin 8, g[j] = gValue e.x[j] (nextState cfg e).c[j]) ∧
    nextState cfg e = { e with
      x := evalExprs cfg.scf.gMix g
      c := (counterUpdate cfg.ctrMode cfg.scf.laneA e.c e.carry).1
      carry := (counterUpdate cfg.ctrMode cfg.scf.laneA e.c e.carry).2 }

/-- The state combination and the keystream words of `SCF_PUB`, the reference formula set that the spec supplies "from
general knowledge, not in source" (43_stream_state.md, GMIX and KSMIX; log entry 3). -/
def Obligations.StateAndKeystreamFormulasOfTheReferenceSet : Prop :=
  (∀ (g : Vector Word 8) (j : Fin 8),
    (evalExprs scfPub.gMix g)[j] =
      if j.val % 2 = 0 then g[j] + rotl32 g[j - 1] 16 + rotl32 g[j - 2] 16
      else g[j] + rotl32 g[j - 1] 8 + g[j - 2]) ∧
  (∀ (cfg : Config) (x : Vector Word 8), cfg.scf = scfPub →
    ksMix cfg x = ⟨x[0] ^^^ (x[5] >>> 16) ^^^ (x[3] <<< 16), x[2] ^^^ (x[7] >>> 16) ^^^ (x[5] <<< 16),
      x[4] ^^^ (x[1] >>> 16) ^^^ (x[7] <<< 16), x[6] ^^^ (x[3] >>> 16) ^^^ (x[1] <<< 16)⟩)

/-- The sixteen formulas of `KEYMIX` in `SCF_PUB`, which the spec supplies "from general knowledge, not in source"
(43_stream_state.md, KEYSETUP; log entry 3), and `CARRY` = 0. -/
def Obligations.KeyMixMatchesTheFormulas : Prop :=
  ∀ (cfg : Config) (key : List Byte) (e : Sce), cfg.scf = scfPub →
    (let k0 := (keyWords key)[0]
     let k1 := (keyWords key)[1]
     let k2 := (keyWords key)[2]
     let k3 := (keyWords key)[3]
     (keyMix cfg key e).x = #v[k0, k3 <<< 16 ||| k2 >>> 16, k1, k0 <<< 16 ||| k3 >>> 16,
       k2, k1 <<< 16 ||| k0 >>> 16, k3, k2 <<< 16 ||| k1 >>> 16] ∧
     (keyMix cfg key e).c = #v[rotl32 k2 16, (k0 &&& 0xFFFF0000) ||| (k1 &&& 0x0000FFFF),
       rotl32 k3 16, (k1 &&& 0xFFFF0000) ||| (k2 &&& 0x0000FFFF),
       rotl32 k0 16, (k2 &&& 0xFFFF0000) ||| (k3 &&& 0x0000FFFF),
       rotl32 k1 16, (k3 &&& 0xFFFF0000) ||| (k0 &&& 0x0000FFFF)] ∧
     (keyMix cfg key e).carry = false)

/-- The IV step of `SCF_PUB`, which the spec supplies "from general knowledge, not in source" (43_stream_state.md, IVSETUP;
log entries 3, 14): the mixing words as little-endian halves of the IV, XORed into the counters lane by lane modulo 4, `X`
and `CARRY` untouched, then four `NEXTSTATE`. -/
def Obligations.IvSetupMixesHalfWords : Prop :=
  ∀ (cfg : Config) (iv : List Byte) (e : Sce), cfg.scf = scfPub →
    (let v := fun t : Nat => (iv.getD (2 * t) 0).setWidth 32 ||| (iv.getD (2 * t + 1) 0).setWidth 32 <<< 8
     let m : Vector Word 4 := #v[v 1 <<< 16 ||| v 0, v 3 <<< 16 ||| v 1, v 3 <<< 16 ||| v 2, v 2 <<< 16 ||| v 0]
     ivSetup cfg iv e = advances cfg { e with
       c := Vector.ofFn fun j : Fin 8 => e.c[j] ^^^ m[j.val % 4]'(Nat.mod_lt _ (by decide)) } 4)

/-- R108: after the four blind iterations each counter word is XORed with the state word four lanes ahead, and nothing
else changes; no keystream is extracted during key setup. -/
def Obligations.KeySetupRemixesTheCounters : Prop :=
  ∀ (cfg : Config) (key : List Byte) (e : Sce),
    (let blind := advances cfg (keyMix cfg key e) 4
     let r := keySetup cfg key e
     r = { blind with c := r.c } ∧
     (∀ i : Fin 8, r.c[i] = blind.c[i] ^^^ blind.x[(i.val + 4) % 8]'(Nat.mod_lt _ (by decide))) ∧
     r.ksbuf = e.ksbuf ∧ r.ksPos = e.ksPos ∧ r.valid = e.valid)

/-- R115: one `EXTRACT` is one `NEXTSTATE`, then the four words of `KSMIX` of the new state as 16 little-endian bytes, all of
them pending; for every formula set. -/
def Obligations.ExtractYieldsSixteenBytes : Prop :=
  ∀ (cfg : Config) (e : Sce),
    (let n := nextState cfg e
     let s := ksMix cfg n.x
     let r := extract cfg e
     r.x = n.x ∧ r.c = n.c ∧ r.carry = n.carry ∧ r.valid = e.valid ∧ r.ksPos = 0 ∧
     ∀ (i : Fin 4) (k : Fin 4),
       r.ksbuf[4 * i.val + k.val]'(by omega) = (#v[s.r0, s.r1, s.r2, s.r3][i]).extractLsb' (8 * k.val) 8)

/-- An absent IV is eight zero bytes (R110): for every formula set, `SC.INIT` with `BLEN` = 0 ends in the same state as with
`BLEN` = 8 and eight zero bytes of IV in memory. -/
def Obligations.AbsentIvIsTheZeroIv : Prop :=
  ∀ (s : State) (a b b' : Nat), a + 16 ≤ s.cfg.dmemBytes → b + 8 ≤ s.cfg.dmemBytes → b' ≤ s.cfg.dmemBytes →
    memReadBytes s.dmem b 8 = List.replicate 8 0 →
    exec (.scInit a 16 b' 0) s = exec (.scInit a 16 b 8) s

/-- The stream state after `SC.INIT`, and every keystream byte after it, is a function of the key bytes and the IV bytes
(and the parameters), whatever the two machines held before (R117, which the spec derives from R105, R111 and R115). -/
def Obligations.KeystreamIsAFunctionOfKeyAndIv : Prop :=
  ∀ (s s' t t' : State) (a a' b b' blen : Nat), s.cfg = s'.cfg →
    exec (.scInit a 16 b blen) s = .next t → exec (.scInit a' 16 b' blen) s' = .next t' →
    t.code = 0x00 → t'.code = 0x00 →
    memReadBytes s.dmem a 16 = memReadBytes s'.dmem a' 16 →
    memReadBytes s.dmem b blen = memReadBytes s'.dmem b' blen →
    t.sce.x = t'.sce.x ∧ t.sce.c = t'.sce.c ∧ t.sce.carry = t'.sce.carry ∧
    ∀ p, keystreamByte t.cfg t.sce p = keystreamByte t'.cfg t'.sce p

/-- Keystream byte number `n` of a session is byte `n mod 16` of the chunk produced by extraction number `n div 16`
(R126, which the spec derives from R125). -/
def Obligations.KeystreamByteNumbering : Prop :=
  ∀ (cfg : Config) (e : Sce) (n : Nat), e.ksPos = 16 →
    (extractions cfg e (n / 16 + 1)).ksbuf[n % 16]? = some (keystreamByte cfg e n)

/-- How many extractions `n` keystream bytes take, and where the read position ends (R125): `ceil(max(0, n - q) / 16)` with
`q` bytes pending, no chunk generated ahead. -/
def Obligations.ExtractionsAreLazy : Prop :=
  ∀ (cfg : Config) (e : Sce) (n : Nat), e.ksPos ≤ 16 →
    (let q := 16 - e.ksPos
     let r := streamAfter cfg e n
     let adv := advances cfg e ((n - q + 15) / 16)
     r.x = adv.x ∧ r.c = adv.c ∧ r.carry = adv.carry ∧
     r.ksPos = if n ≤ q then e.ksPos + n else if (n - q) % 16 = 0 then 16 else (n - q) % 16)

/-- How a message is cut into commands does not matter (R126): two `SC.XOR` over consecutive pieces end in the same state
as one `SC.XOR` over the whole. -/
def Obligations.CutPointsDoNotMatter : Prop :=
  ∀ (s : State) (a b n k : Nat), s.abort = false → s.sce.valid = true → a + (n + k) ≤ s.cfg.dmemBytes →
    b + (n + k) ≤ s.cfg.dmemBytes → (a = b ∨ b + (n + k) ≤ a ∨ a + (n + k) ≤ b) →
    ∃ t u, exec (.scXor a n b n) s = .next t ∧ exec (.scXor (a + n) k (b + n) k) t = .next u ∧
      exec (.scXor a (n + k) b (n + k)) s = .next u ∧ u.code = 0x00

/-- The combiner is its own inverse (R127): in two sessions with the same stream state, `SC.XOR` over the output of the
first restores the original bytes. -/
def Obligations.CombineIsItsOwnInverse : Prop :=
  ∀ (s s' t t' : State) (a b a' b' n : Nat), s.cfg = s'.cfg → s.sce = s'.sce →
    Memory.wf s.dmem = true → Memory.wf s'.dmem = true →
    exec (.scXor a n b n) s = .next t → exec (.scXor a' n b' n) s' = .next t' → t.code = 0x00 → t'.code = 0x00 →
    memReadBytes s'.dmem a' n = memReadBytes t.dmem b n →
    memReadBytes t'.dmem b' n = memReadBytes s.dmem a n

/-! ### The host procedures -/

/-- The hex text of a byte string has two lowercase digits a byte, the high one first, and decoding it gives the bytes back;
decoding fails exactly on an odd length or a character that is no hex digit, and otherwise gives one byte for each pair,
its high digit first (R142, R143). -/
def Obligations.HexDecodingInvertsEncodingAndRefusesMalformedText : Prop :=
  (∀ bs : List Byte, hexDec (hexEnc bs) = some bs ∧ (hexEnc bs).length = 2 * bs.length ∧
    ∀ i, i < bs.length →
      (let digits := ['0', '1', '2', '3', '4', '5', '6', '7', '8', '9', 'a', 'b', 'c', 'd', 'e', 'f']
       (hexEnc bs)[2 * i]? = digits[(bs.getD i 0).toNat / 16]? ∧ (hexEnc bs)[2 * i + 1]? = digits[(bs.getD i 0).toNat % 16]?)) ∧
  ∀ text : List Char,
    (hexDec text = none ↔ (text.length % 2 = 1 ∨ ∃ c ∈ text, hexValue c = none)) ∧
    (∀ bs, hexDec text = some bs → text.length = 2 * bs.length ∧
      ∀ i, i < bs.length → hexPair (text.getD (2 * i) ' ') (text.getD (2 * i + 1) ' ') = bs[i]?)

/-- R144, R145: `ZPAD` appends the fewest zero bytes that make the length a multiple of 16; `ZSTRIP` removes every trailing
zero byte and nothing else. -/
def Obligations.PaddingAndStripping : Prop :=
  (∀ bs : List Byte, ∃ k, k ≤ 15 ∧ zpad bs = bs ++ List.replicate k 0 ∧ (bs.length + k) % 16 = 0) ∧
  (∀ bs : List Byte, ∃ k, bs = zstrip bs ++ List.replicate k 0 ∧ (zstrip bs).getLast? ≠ some 0) ∧
  (∀ bs : List Byte, zstrip (zpad bs) = zstrip bs)

/-- R152, invalid key size: with a key of an illegal length that fits in memory, `BLOCK_ENCRYPT` and `BLOCK_DECRYPT` stop
with `InvalidKeySize`, whatever the text, and the block engine is as before: no block was processed. -/
def Obligations.IllegalKeySizeStopsTheProcedure : Prop :=
  ∀ (s : State) (key plaintext : List Byte) (text : List Char), s.Usable → key.length ≤ s.cfg.dmemBytes →
    (key.length ≠ 16 ∧ key.length ≠ 24 ∧ key.length ≠ 32) →
    ∃ t, blockEncrypt key plaintext s = (.error (.core 0x01), t) ∧ blockDecrypt key text s = (.error (.core 0x01), t) ∧
      t.bce = s.bce ∧ t.abort = false

/-- R152, block round trip: on any two machines fit for the procedures, `BLOCK_DECRYPT` of what `BLOCK_ENCRYPT` answers is
the plaintext without its trailing zero bytes. -/
def Obligations.BlockProceduresRoundTrip : Prop :=
  ∀ (s s' : State) (key plaintext : List Byte), s.Usable → s'.Usable →
    (key.length = 16 ∨ key.length = 24 ∨ key.length = 32) →
    ∃ text t t', blockEncrypt key plaintext s = (.ok text, t) ∧ text.length = 2 * (zpad plaintext).length ∧
      blockDecrypt key text s' = (.ok (zstrip plaintext), t')

/-- R152, stream round trip: on any two machines fit for the procedures and with the same parameters, `STREAM_DECRYPT` of
what `STREAM_ENCRYPT` answers is the plaintext, for every 16-byte key and every legal IV. -/
def Obligations.StreamProceduresRoundTrip : Prop :=
  ∀ (s s' : State) (key iv plaintext : List Byte), s.Usable → s'.Usable → s.cfg = s'.cfg →
    key.length = 16 → (iv.length = 0 ∨ iv.length = 8) →
    ∃ text t t', streamEncrypt key iv plaintext s = (.ok text, t) ∧ text.length = 2 * plaintext.length ∧
      streamDecrypt key iv text s' = (.ok plaintext, t')
end

