-- ==== Sys2Proof/Laws/State.lean ====
section
/-! SUPPORT. One lemma per field per update of the state: what each named update leaves in every field. -/

namespace Sys2Proof.Machine


/-! ### `raiseFail` -/

@[simp] theorem State.raiseFail_cfg (s : State) (k : Code) : (s.raiseFail k).cfg = s.cfg := rfl
@[simp] theorem State.raiseFail_bce (s : State) (k : Code) : (s.raiseFail k).bce = s.bce := rfl
@[simp] theorem State.raiseFail_sce (s : State) (k : Code) : (s.raiseFail k).sce = s.sce := rfl
@[simp] theorem State.raiseFail_code (s : State) (k : Code) : (s.raiseFail k).code = k.toByte := rfl
@[simp] theorem State.raiseFail_abort (s : State) (k : Code) : (s.raiseFail k).abort = s.abort := rfl
@[simp] theorem State.raiseFail_dmem (s : State) (k : Code) : (s.raiseFail k).dmem = s.dmem := rfl
@[simp] theorem State.raiseFail_inbox (s : State) (k : Code) : (s.raiseFail k).inbox = s.inbox := rfl
@[simp] theorem State.raiseFail_reply (s : State) (k : Code) : (s.raiseFail k).reply = s.reply := rfl
@[simp] theorem State.raiseFail_draws (s : State) (k : Code) : (s.raiseFail k).draws = s.draws := rfl

/-! ### `raiseAbort` -/

@[simp] theorem State.raiseAbort_cfg (s : State) (k : Code) : (s.raiseAbort k).cfg = s.cfg := rfl
@[simp] theorem State.raiseAbort_bce (s : State) (k : Code) : (s.raiseAbort k).bce = s.bce := rfl
@[simp] theorem State.raiseAbort_sce (s : State) (k : Code) : (s.raiseAbort k).sce = s.sce := rfl
@[simp] theorem State.raiseAbort_code (s : State) (k : Code) : (s.raiseAbort k).code = k.toByte := rfl
@[simp] theorem State.raiseAbort_abort (s : State) (k : Code) : (s.raiseAbort k).abort = true := rfl
@[simp] theorem State.raiseAbort_dmem (s : State) (k : Code) : (s.raiseAbort k).dmem = s.dmem := rfl
@[simp] theorem State.raiseAbort_inbox (s : State) (k : Code) : (s.raiseAbort k).inbox = s.inbox := rfl
@[simp] theorem State.raiseAbort_reply (s : State) (k : Code) : (s.raiseAbort k).reply = s.reply := rfl
@[simp] theorem State.raiseAbort_draws (s : State) (k : Code) : (s.raiseAbort k).draws = s.draws := rfl

/-! ### `succeed` -/

@[simp] theorem State.succeed_cfg (s : State) : (s.succeed).cfg = s.cfg := rfl
@[simp] theorem State.succeed_bce (s : State) : (s.succeed).bce = s.bce := rfl
@[simp] theorem State.succeed_sce (s : State) : (s.succeed).sce = s.sce := rfl
@[simp] theorem State.succeed_code (s : State) : (s.succeed).code = Code.toByte .ok := rfl
@[simp] theorem State.succeed_abort (s : State) : (s.succeed).abort = s.abort := rfl
@[simp] theorem State.succeed_dmem (s : State) : (s.succeed).dmem = s.dmem := rfl
@[simp] theorem State.succeed_inbox (s : State) : (s.succeed).inbox = s.inbox := rfl
@[simp] theorem State.succeed_reply (s : State) : (s.succeed).reply = s.reply := rfl
@[simp] theorem State.succeed_draws (s : State) : (s.succeed).draws = s.draws := rfl

/-! ### `storeBlock` -/

@[simp] theorem State.storeBlock_cfg (s : State) (b : Nat) (q : Quad) : (s.storeBlock b q).cfg = s.cfg := rfl
@[simp] theorem State.storeBlock_bce (s : State) (b : Nat) (q : Quad) : (s.storeBlock b q).bce = s.bce := rfl
@[simp] theorem State.storeBlock_sce (s : State) (b : Nat) (q : Quad) : (s.storeBlock b q).sce = s.sce := rfl
@[simp] theorem State.storeBlock_code (s : State) (b : Nat) (q : Quad) : (s.storeBlock b q).code = s.code := rfl
@[simp] theorem State.storeBlock_abort (s : State) (b : Nat) (q : Quad) : (s.storeBlock b q).abort = s.abort := rfl
@[simp] theorem State.storeBlock_dmem (s : State) (b : Nat) (q : Quad) : (s.storeBlock b q).dmem = memWriteBytes s.dmem b (quadBytes q) := rfl
@[simp] theorem State.storeBlock_inbox (s : State) (b : Nat) (q : Quad) : (s.storeBlock b q).inbox = s.inbox := rfl
@[simp] theorem State.storeBlock_reply (s : State) (b : Nat) (q : Quad) : (s.storeBlock b q).reply = s.reply := rfl
@[simp] theorem State.storeBlock_draws (s : State) (b : Nat) (q : Quad) : (s.storeBlock b q).draws = s.draws := rfl

/-! ### `combine` -/

@[simp] theorem State.combine_cfg (s : State) (a n b : Nat) : (s.combine a n b).cfg = s.cfg := rfl
@[simp] theorem State.combine_bce (s : State) (a n b : Nat) : (s.combine a n b).bce = s.bce := rfl
@[simp] theorem State.combine_sce (s : State) (a n b : Nat) : (s.combine a n b).sce = (xorLoop s.cfg a b s.sce s.dmem n).1 := rfl
@[simp] theorem State.combine_code (s : State) (a n b : Nat) : (s.combine a n b).code = s.code := rfl
@[simp] theorem State.combine_abort (s : State) (a n b : Nat) : (s.combine a n b).abort = s.abort := rfl
@[simp] theorem State.combine_dmem (s : State) (a n b : Nat) : (s.combine a n b).dmem = (xorLoop s.cfg a b s.sce s.dmem n).2 := rfl
@[simp] theorem State.combine_inbox (s : State) (a n b : Nat) : (s.combine a n b).inbox = s.inbox := rfl
@[simp] theorem State.combine_reply (s : State) (a n b : Nat) : (s.combine a n b).reply = s.reply := rfl
@[simp] theorem State.combine_draws (s : State) (a n b : Nat) : (s.combine a n b).draws = s.draws := rfl

/-! ### `clearSession` -/

@[simp] theorem State.clearSession_cfg (s : State) : (s.clearSession).cfg = s.cfg := rfl
@[simp] theorem State.clearSession_bce (s : State) : (s.clearSession).bce = s.bce := rfl
@[simp] theorem State.clearSession_sce (s : State) : (s.clearSession).sce = freeSce s.draws := rfl
@[simp] theorem State.clearSession_code (s : State) : (s.clearSession).code = s.code := rfl
@[simp] theorem State.clearSession_abort (s : State) : (s.clearSession).abort = s.abort := rfl
@[simp] theorem State.clearSession_dmem (s : State) : (s.clearSession).dmem = s.dmem := rfl
@[simp] theorem State.clearSession_inbox (s : State) : (s.clearSession).inbox = s.inbox := rfl
@[simp] theorem State.clearSession_reply (s : State) : (s.clearSession).reply = s.reply := rfl
@[simp] theorem State.clearSession_draws (s : State) : (s.clearSession).draws = s.draws + 1 := rfl

/-! ### `resetEvent` -/

@[simp] theorem State.resetEvent_cfg (s : State) : (s.resetEvent).cfg = s.cfg := by simp only [State.resetEvent]
@[simp] theorem State.resetEvent_bce (s : State) : (s.resetEvent).bce = ⟨freeRk s.draws, false⟩ := by simp only [State.resetEvent]
@[simp] theorem State.resetEvent_sce (s : State) : (s.resetEvent).sce = freeSce s.draws := by simp only [State.resetEvent]
@[simp] theorem State.resetEvent_code (s : State) : (s.resetEvent).code = Code.toByte .ok := by simp only [State.resetEvent]
@[simp] theorem State.resetEvent_abort (s : State) : (s.resetEvent).abort = false := by simp only [State.resetEvent]
@[simp] theorem State.resetEvent_dmem (s : State) : (s.resetEvent).dmem = s.dmem := by simp only [State.resetEvent]
@[simp] theorem State.resetEvent_inbox (s : State) : (s.resetEvent).inbox = s.inbox := by simp only [State.resetEvent]
@[simp] theorem State.resetEvent_reply (s : State) : (s.resetEvent).reply = s.reply := by simp only [State.resetEvent]
@[simp] theorem State.resetEvent_draws (s : State) : (s.resetEvent).draws = s.draws + 1 := by simp only [State.resetEvent]

/-! ### `powerOnEvent` -/

@[simp] theorem State.powerOnEvent_cfg (s : State) : (s.powerOnEvent).cfg = s.cfg := by simp only [State.powerOnEvent, State.resetEvent]
@[simp] theorem State.powerOnEvent_bce (s : State) : (s.powerOnEvent).bce = ⟨freeRk s.draws, false⟩ := by simp only [State.powerOnEvent, State.resetEvent]
@[simp] theorem State.powerOnEvent_sce (s : State) : (s.powerOnEvent).sce = freeSce s.draws := by simp only [State.powerOnEvent, State.resetEvent]
@[simp] theorem State.powerOnEvent_code (s : State) : (s.powerOnEvent).code = Code.toByte .ok := by simp only [State.powerOnEvent, State.resetEvent]
@[simp] theorem State.powerOnEvent_abort (s : State) : (s.powerOnEvent).abort = false := by simp only [State.powerOnEvent, State.resetEvent]
@[simp] theorem State.powerOnEvent_dmem (s : State) : (s.powerOnEvent).dmem = memOfCells s.cfg (Config.freeDmem s.draws) := by simp only [State.powerOnEvent, State.resetEvent]
@[simp] theorem State.powerOnEvent_inbox (s : State) : (s.powerOnEvent).inbox = s.inbox := by simp only [State.powerOnEvent, State.resetEvent]
@[simp] theorem State.powerOnEvent_reply (s : State) : (s.powerOnEvent).reply = s.reply := by simp only [State.powerOnEvent, State.resetEvent]
@[simp] theorem State.powerOnEvent_draws (s : State) : (s.powerOnEvent).draws = s.draws + 1 := by simp only [State.powerOnEvent, State.resetEvent]

/-! ### `clearKey` -/

@[simp] theorem State.clearKey_cfg (s : State) : s.clearKey.cfg = s.cfg := by unfold State.clearKey; split <;> rfl
@[simp] theorem State.clearKey_sce (s : State) : s.clearKey.sce = s.sce := by unfold State.clearKey; split <;> rfl
@[simp] theorem State.clearKey_code (s : State) : s.clearKey.code = s.code := by unfold State.clearKey; split <;> rfl
@[simp] theorem State.clearKey_abort (s : State) : s.clearKey.abort = s.abort := by unfold State.clearKey; split <;> rfl
@[simp] theorem State.clearKey_dmem (s : State) : s.clearKey.dmem = s.dmem := by unfold State.clearKey; split <;> rfl
@[simp] theorem State.clearKey_inbox (s : State) : s.clearKey.inbox = s.inbox := by unfold State.clearKey; split <;> rfl
@[simp] theorem State.clearKey_reply (s : State) : s.clearKey.reply = s.reply := by unfold State.clearKey; split <;> rfl
@[simp] theorem State.clearKey_valid (s : State) : s.clearKey.bce.valid = false := by
  unfold State.clearKey; split <;> simp_all
theorem State.clearKey_of_not_valid (s : State) (h : s.bce.valid = false) : s.clearKey = s := by simp [State.clearKey, h]

/-! ### `turnAway` -/

@[simp] theorem State.turnAway_cfg (s : State) (k : Check) : (s.turnAway k).cfg = s.cfg := by unfold State.turnAway; split <;> rfl
@[simp] theorem State.turnAway_bce (s : State) (k : Check) : (s.turnAway k).bce = s.bce := by unfold State.turnAway; split <;> rfl
@[simp] theorem State.turnAway_sce (s : State) (k : Check) : (s.turnAway k).sce = s.sce := by unfold State.turnAway; split <;> rfl
@[simp] theorem State.turnAway_dmem (s : State) (k : Check) : (s.turnAway k).dmem = s.dmem := by unfold State.turnAway; split <;> rfl
@[simp] theorem State.turnAway_inbox (s : State) (k : Check) : (s.turnAway k).inbox = s.inbox := by unfold State.turnAway; split <;> rfl
@[simp] theorem State.turnAway_reply (s : State) (k : Check) : (s.turnAway k).reply = s.reply := by unfold State.turnAway; split <;> rfl
@[simp] theorem State.turnAway_draws (s : State) (k : Check) : (s.turnAway k).draws = s.draws := by unfold State.turnAway; split <;> rfl
@[simp] theorem State.turnAway_code (s : State) (k : Check) : (s.turnAway k).code = k.code.toByte := by
  unfold State.turnAway; split <;> rfl
@[simp] theorem State.turnAway_abort (s : State) (k : Check) : (s.turnAway k).abort = (s.abort || k.cls == .abort) := by
  unfold State.turnAway; split <;> simp_all

/-! ### `withFetchWord` -/

@[simp] theorem State.withFetchWord_cfg (s : State) (n w : Nat) : (s.withFetchWord n w).cfg = s.cfg := rfl
@[simp] theorem State.withFetchWord_bce (s : State) (n w : Nat) : (s.withFetchWord n w).bce = s.bce := rfl
@[simp] theorem State.withFetchWord_sce (s : State) (n w : Nat) : (s.withFetchWord n w).sce = s.sce := rfl
@[simp] theorem State.withFetchWord_code (s : State) (n w : Nat) : (s.withFetchWord n w).code = s.code := rfl
@[simp] theorem State.withFetchWord_abort (s : State) (n w : Nat) : (s.withFetchWord n w).abort = s.abort := rfl
@[simp] theorem State.withFetchWord_dmem (s : State) (n w : Nat) : (s.withFetchWord n w).dmem = s.dmem := rfl
@[simp] theorem State.withFetchWord_inbox (s : State) (n w : Nat) : (s.withFetchWord n w).inbox = .command (tableWordCmd n w) :: s.inbox := rfl
@[simp] theorem State.withFetchWord_reply (s : State) (n w : Nat) : (s.withFetchWord n w).reply = s.reply := rfl
@[simp] theorem State.withFetchWord_draws (s : State) (n w : Nat) : (s.withFetchWord n w).draws = s.draws := rfl

/-! ### The stream engine -/

@[simp] theorem nextState_ksbuf (cfg : Config) (e : Sce) : (nextState cfg e).ksbuf = e.ksbuf := rfl
@[simp] theorem nextState_ksPos (cfg : Config) (e : Sce) : (nextState cfg e).ksPos = e.ksPos := rfl
@[simp] theorem nextState_valid (cfg : Config) (e : Sce) : (nextState cfg e).valid = e.valid := rfl
@[simp] theorem nextState4_ksbuf (cfg : Config) (e : Sce) : (nextState4 cfg e).ksbuf = e.ksbuf := rfl
@[simp] theorem nextState4_ksPos (cfg : Config) (e : Sce) : (nextState4 cfg e).ksPos = e.ksPos := rfl
@[simp] theorem nextState4_valid (cfg : Config) (e : Sce) : (nextState4 cfg e).valid = e.valid := rfl
@[simp] theorem keyMix_ksbuf (cfg : Config) (key : List Byte) (e : Sce) : (keyMix cfg key e).ksbuf = e.ksbuf := rfl
@[simp] theorem keyMix_ksPos (cfg : Config) (key : List Byte) (e : Sce) : (keyMix cfg key e).ksPos = e.ksPos := rfl
@[simp] theorem keyMix_valid (cfg : Config) (key : List Byte) (e : Sce) : (keyMix cfg key e).valid = e.valid := rfl
@[simp] theorem remix_x (e : Sce) : (remix e).x = e.x := rfl
@[simp] theorem remix_carry (e : Sce) : (remix e).carry = e.carry := rfl
@[simp] theorem remix_ksbuf (e : Sce) : (remix e).ksbuf = e.ksbuf := rfl
@[simp] theorem remix_ksPos (e : Sce) : (remix e).ksPos = e.ksPos := rfl
@[simp] theorem remix_valid (e : Sce) : (remix e).valid = e.valid := rfl
@[simp] theorem keySetup_ksbuf (cfg : Config) (key : List Byte) (e : Sce) : (keySetup cfg key e).ksbuf = e.ksbuf := rfl
@[simp] theorem keySetup_ksPos (cfg : Config) (key : List Byte) (e : Sce) : (keySetup cfg key e).ksPos = e.ksPos := rfl
@[simp] theorem keySetup_valid (cfg : Config) (key : List Byte) (e : Sce) : (keySetup cfg key e).valid = e.valid := rfl
@[simp] theorem ivMixIn_x (cfg : Config) (iv : List Byte) (e : Sce) : (ivMixIn cfg iv e).x = e.x := rfl
@[simp] theorem ivMixIn_carry (cfg : Config) (iv : List Byte) (e : Sce) : (ivMixIn cfg iv e).carry = e.carry := rfl
@[simp] theorem ivMixIn_ksbuf (cfg : Config) (iv : List Byte) (e : Sce) : (ivMixIn cfg iv e).ksbuf = e.ksbuf := rfl
@[simp] theorem ivMixIn_ksPos (cfg : Config) (iv : List Byte) (e : Sce) : (ivMixIn cfg iv e).ksPos = e.ksPos := rfl
@[simp] theorem ivMixIn_valid (cfg : Config) (iv : List Byte) (e : Sce) : (ivMixIn cfg iv e).valid = e.valid := rfl
@[simp] theorem ivSetup_ksbuf (cfg : Config) (iv : List Byte) (e : Sce) : (ivSetup cfg iv e).ksbuf = e.ksbuf := rfl
@[simp] theorem ivSetup_ksPos (cfg : Config) (iv : List Byte) (e : Sce) : (ivSetup cfg iv e).ksPos = e.ksPos := rfl
@[simp] theorem ivSetup_valid (cfg : Config) (iv : List Byte) (e : Sce) : (ivSetup cfg iv e).valid = e.valid := rfl
@[simp] theorem advance_x (e : Sce) : (advance e).x = e.x := rfl
@[simp] theorem advance_c (e : Sce) : (advance e).c = e.c := rfl
@[simp] theorem advance_carry (e : Sce) : (advance e).carry = e.carry := rfl
@[simp] theorem advance_ksbuf (e : Sce) : (advance e).ksbuf = e.ksbuf := rfl
@[simp] theorem advance_valid (e : Sce) : (advance e).valid = e.valid := rfl
@[simp] theorem advance_ksPos (e : Sce) : (advance e).ksPos = e.ksPos + 1 := rfl
@[simp] theorem keyMix_carry (cfg : Config) (key : List Byte) (e : Sce) : (keyMix cfg key e).carry = false := rfl
@[simp] theorem extract_ksPos (cfg : Config) (e : Sce) : (extract cfg e).ksPos = 0 := rfl
@[simp] theorem extract_x (cfg : Config) (e : Sce) : (extract cfg e).x = (nextState cfg e).x := rfl
@[simp] theorem extract_c (cfg : Config) (e : Sce) : (extract cfg e).c = (nextState cfg e).c := rfl
@[simp] theorem extract_carry (cfg : Config) (e : Sce) : (extract cfg e).carry = (nextState cfg e).carry := rfl
@[simp] theorem extract_valid (cfg : Config) (e : Sce) : (extract cfg e).valid = e.valid := rfl
@[simp] theorem refill_valid (cfg : Config) (e : Sce) : (refill cfg e).valid = e.valid := by unfold refill; split <;> rfl
@[simp] theorem initSession_ksPos (cfg : Config) (key iv : List Byte) (e : Sce) : (initSession cfg key iv e).ksPos = 16 := rfl
@[simp] theorem initSession_valid (cfg : Config) (key iv : List Byte) (e : Sce) : (initSession cfg key iv e).valid = true := rfl
@[simp] theorem initSession_ksbuf (cfg : Config) (key iv : List Byte) (e : Sce) : (initSession cfg key iv e).ksbuf = e.ksbuf := rfl
@[simp] theorem freeSce_valid (d : Nat) : (freeSce d).valid = false := rfl
theorem freeSce_ksPos_le (d : Nat) : (freeSce d).ksPos ≤ 16 := Nat.le_of_lt_succ (Config.freePos d).isLt

end Sys2Proof.Machine
end

