-- ==== Sys2Proof/Laws/Commands.lean ====
section
/-! SUPPORT. What one command can do: it always answers a next state, which is either the command's effect with code OK
or the state before with the code of the first failing check. -/

namespace Sys2Proof.Machine

/-- The checks of each command after `Aborted` (R175), in order. -/
def checksOf : Instr → State → List Check
  | .bcKey a alen, s => [rangeCheck s a alen, ⟨!legalBcKey alen, .fail, .invalidKeySize⟩]
  | .bcEnc a b, s => [bcNotReady s, rangeCheck s a 16, rangeCheck s b 16]
  | .bcDec a b, s => [bcNotReady s, rangeCheck s a 16, rangeCheck s b 16]
  | .bcClr, _ => []
  | .scInit a alen b blen, s =>
    [rangeCheck s a alen, rangeCheck s b blen,
     ⟨!legalScKey alen, .fail, .invalidKeyLength⟩, ⟨!legalScIv blen, .fail, .invalidIVLength⟩]
  | .scXor a alen b blen, s =>
    [scNotReady s, rangeCheck s a alen, rangeCheck s b blen,
     ⟨decide (blen < alen), .abort, .bufferTooSmall⟩, ⟨badOverlap a alen b blen, .abort, .overlappingBuffers⟩]
  | .scClr, _ => []

/-- The effect of each command when no check fails. -/
def effectOf : Instr → State → State
  | .bcKey a alen, s => { s with bce := { rk := roundKeys (memReadBytes s.dmem a alen), valid := true } }
  | .bcEnc a b, s => s.storeBlock b (encBlock s.bce.rk (s.loadBlock a))
  | .bcDec a b, s => s.storeBlock b (decBlock s.bce.rk (s.loadBlock a))
  | .bcClr, s => s.clearKey
  | .scInit a _ b blen, s =>
    { s with sce := initSession s.cfg (memReadBytes s.dmem a 16) (ivBytes s.dmem b blen) s.sce }
  | .scXor a alen b _, s => s.combine a alen b
  | .scClr, s => s.clearSession

theorem exec_eq_runCommand (i : Instr) (s : State) : exec i s = runCommand (checksOf i s) (effectOf i) s := by
  cases i <;> rfl

theorem firstFailing_eq_none_iff (ks : List Check) : firstFailing ks = none ↔ ∀ k ∈ ks, k.bad = false := by
  induction ks with
  | nil => simp [firstFailing]
  | cons k rest ih =>
    simp only [firstFailing]
    cases h : k.bad <;> simp [h, ih]

theorem firstFailing_eq_some {ks : List Check} {k : Check} (h : firstFailing ks = some k) : k ∈ ks ∧ k.bad = true := by
  induction ks with
  | nil => simp [firstFailing] at h
  | cons k' rest ih =>
    simp only [firstFailing] at h
    split at h
    · cases h; exact ⟨by simp, ‹_›⟩
    · exact ⟨List.mem_cons_of_mem _ (ih h).1, (ih h).2⟩

/-- A command that no check turns away has its effect and ends with code OK. -/
theorem runCommand_succeeds {checks : List Check} {effect : State → State} {s : State} (ha : s.abort = false)
    (hk : ∀ k ∈ checks, k.bad = false) : runCommand checks effect s = .next (effect s).succeed := by
  have : firstFailing (⟨s.abort, .fail, .aborted⟩ :: checks) = none := by
    rw [firstFailing_eq_none_iff]; intro k hk'; rcases List.mem_cons.mp hk' with rfl | h
    · exact ha
    · exact hk k h
  simp [runCommand, this]

/-- While `ABORT` = 1 a command does nothing but `STATUS.CODE <- Aborted`. -/
theorem runCommand_aborted {checks : List Check} {effect : State → State} {s : State} (ha : s.abort = true) :
    runCommand checks effect s = .next (s.raiseFail .aborted) := by
  simp [runCommand, firstFailing, ha, State.turnAway]

theorem runCommand_nil {effect : State → State} {s : State} (ha : s.abort = false) :
    runCommand [] effect s = .next (effect s).succeed := runCommand_succeeds ha (by simp)

/-- The checks are made one after another. -/
theorem runCommand_cons {k : Check} {checks : List Check} {effect : State → State} {s : State} (ha : s.abort = false) :
    runCommand (k :: checks) effect s = if k.bad = true then .next (s.turnAway k) else runCommand checks effect s := by
  simp only [runCommand, firstFailing, ha]
  cases k.bad <;> rfl

/-- Everything a command can do. -/
theorem runCommand_cases {checks : List Check} {effect : State → State} {s t : State}
    (h : runCommand checks effect s = .next t) :
    (s.abort = false ∧ (∀ k ∈ checks, k.bad = false) ∧ t = (effect s).succeed) ∨
    (∃ k, k ∈ (⟨s.abort, .fail, .aborted⟩ :: checks) ∧ k.bad = true ∧ t = s.turnAway k) := by
  unfold runCommand at h
  split at h
  · rename_i k hk
    exact .inr ⟨k, (firstFailing_eq_some hk).1, (firstFailing_eq_some hk).2, by cases h; rfl⟩
  · rename_i hk
    rw [firstFailing_eq_none_iff] at hk
    exact .inl ⟨hk ⟨s.abort, .fail, .aborted⟩ (by simp), fun k h' => hk k (List.mem_cons_of_mem _ h'), by cases h; rfl⟩

theorem runCommand_answers (checks : List Check) (effect : State → State) (s : State) :
    ∃ t, runCommand checks effect s = .next t := by
  unfold runCommand; split <;> exact ⟨_, rfl⟩

theorem exec_answers (i : Instr) (s : State) : ∃ t, exec i s = .next t := by
  rw [exec_eq_runCommand]; exact runCommand_answers _ _ _

/-- A command that no check turns away: its effect, and code OK. -/
theorem exec_succeeds {i : Instr} {s : State} (ha : s.abort = false) (hk : ∀ k ∈ checksOf i s, k.bad = false) :
    exec i s = .next (effectOf i s).succeed := by
  rw [exec_eq_runCommand, runCommand_succeeds ha hk]

/-- Everything `exec` can do. -/
theorem exec_cases {i : Instr} {s t : State} (h : exec i s = .next t) :
    (s.abort = false ∧ (∀ k ∈ checksOf i s, k.bad = false) ∧ t = (effectOf i s).succeed) ∨
    (∃ k, k ∈ (⟨s.abort, .fail, .aborted⟩ :: checksOf i s) ∧ k.bad = true ∧ t = s.turnAway k) :=
  runCommand_cases (by rw [← exec_eq_runCommand]; exact h)

theorem runDescriptor_answers (w : Cmd5) (s : State) : ∃ t, runDescriptor w s = .next t := by
  unfold runDescriptor; split
  · exact exec_answers _ _
  · exact runCommand_answers _ _ _

end Sys2Proof.Machine
end

