-- ==== Sys2Proof/Laws/Checks.lean ====
section
/-! SUPPORT. When each check of a command fails, and the state a failing check leaves. -/

namespace Sys2Proof.Machine

theorem rangeCheck_bad (s : State) (p n : Nat) : (rangeCheck s p n).bad = true ↔ s.cfg.dmemBytes < p + n := by
  simp [rangeCheck, inRange]

theorem bcNotReady_bad (s : State) : (bcNotReady s).bad = true ↔ s.bce.valid = false := by simp [bcNotReady]

theorem scNotReady_bad (s : State) : (scNotReady s).bad = true ↔ s.sce.valid = false := by simp [scNotReady]

theorem legalBcKey_eq_false (n : Nat) : (!legalBcKey n) = true ↔ n ≠ 16 ∧ n ≠ 24 ∧ n ≠ 32 := by
  simp [legalBcKey]; tauto

theorem legalScKey_eq_false (n : Nat) : (!legalScKey n) = true ↔ n ≠ 16 := by simp [legalScKey]

theorem legalScIv_eq_false (n : Nat) : (!legalScIv n) = true ↔ n ≠ 0 ∧ n ≠ 8 := by simp [legalScIv]

theorem badOverlap_iff (a alen b blen : Nat) :
    badOverlap a alen b blen = true ↔ 0 < alen ∧ a < b + blen ∧ b < a + alen ∧ a ≠ b := by
  simp [badOverlap, overlaps]; tauto

theorem turnAway_rangeCheck (s : State) (p n : Nat) : s.turnAway (rangeCheck s p n) = s.turnedAway .addrRange := by
  simp [State.turnAway, rangeCheck, State.raiseAbort, State.turnedAway, Code.isAbort]

theorem turnAway_bcNotReady (s : State) : s.turnAway (bcNotReady s) = s.turnedAway .notReady := by
  simp [State.turnAway, bcNotReady, State.raiseFail, State.turnedAway, Code.isAbort]

theorem turnAway_scNotReady (s : State) : s.turnAway (scNotReady s) = s.turnedAway .notReady := by
  simp [State.turnAway, scNotReady, State.raiseFail, State.turnedAway, Code.isAbort]

theorem turnAway_illegalCommand (s : State) (b : Bool) : s.turnAway ⟨b, .fail, .illegalCommand⟩ = s.turnedAway .illegalCommand := by
  simp [State.turnAway, State.raiseFail, State.turnedAway, Code.isAbort]

theorem turnAway_invalidKeySize (s : State) (b : Bool) : s.turnAway ⟨b, .fail, .invalidKeySize⟩ = s.turnedAway .invalidKeySize := by
  simp [State.turnAway, State.raiseFail, State.turnedAway, Code.isAbort]

theorem turnAway_invalidKeyLength (s : State) (b : Bool) : s.turnAway ⟨b, .fail, .invalidKeyLength⟩ = s.turnedAway .invalidKeyLength := by
  simp [State.turnAway, State.raiseFail, State.turnedAway, Code.isAbort]

theorem turnAway_invalidIVLength (s : State) (b : Bool) : s.turnAway ⟨b, .fail, .invalidIVLength⟩ = s.turnedAway .invalidIVLength := by
  simp [State.turnAway, State.raiseFail, State.turnedAway, Code.isAbort]

theorem turnAway_bufferTooSmall (s : State) (b : Bool) : s.turnAway ⟨b, .abort, .bufferTooSmall⟩ = s.turnedAway .bufferTooSmall := by
  simp [State.turnAway, State.raiseAbort, State.turnedAway, Code.isAbort]

theorem turnAway_overlappingBuffers (s : State) (b : Bool) : s.turnAway ⟨b, .abort, .overlappingBuffers⟩ = s.turnedAway .overlappingBuffers := by
  simp [State.turnAway, State.raiseAbort, State.turnedAway, Code.isAbort]

end Sys2Proof.Machine
end

