-- ==== Sys2Proof/Laws/Words.lean ====
section
/-! SUPPORT. Byte order, bit columns and rotations: what the word functions of Sys2Proof/Machine/Words.lean do. -/

namespace Sys2Proof.Machine

theorem getLsbD_polarity (b : Bool) (w : Word) (j : Nat) (hj : j < 32) :
    (polarity b w).getLsbD j = (w.getLsbD j == b) := by
  cases b <;> simp [polarity, hj]

theorem column_getLsbD (q : Quad) (j : Nat) :
    (column q j).getLsbD 0 = q.r0.getLsbD j ∧ (column q j).getLsbD 1 = q.r1.getLsbD j ∧
    (column q j).getLsbD 2 = q.r2.getLsbD j ∧ (column q j).getLsbD 3 = q.r3.getLsbD j := by
  unfold column
  generalize q.r0.getLsbD j = a
  generalize q.r1.getLsbD j = b
  generalize q.r2.getLsbD j = c
  generalize q.r3.getLsbD j = d
  revert a b c d; decide

theorem getLsbD_columnsEqual (q : Quad) (n : BitVec 4) (j : Nat) (hj : j < 32) :
    (columnsEqual q n).getLsbD j = decide (column q j = n) := by
  simp only [columnsEqual, BitVec.getLsbD_and, getLsbD_polarity _ _ _ hj]
  unfold column
  generalize q.r0.getLsbD j = a
  generalize q.r1.getLsbD j = b
  generalize q.r2.getLsbD j = c
  generalize q.r3.getLsbD j = d
  revert a b c d n; decide

theorem getLsbD_columnsFold (f : BitVec 4 → BitVec 4) (q : Quad) (i j : Nat) (hj : j < 32) (ns : List (BitVec 4)) (acc : Word) :
    (ns.foldl (fun acc n => if (f n).getLsbD i then acc ||| columnsEqual q n else acc) acc).getLsbD j
      = (acc.getLsbD j || (decide (column q j ∈ ns) && (f (column q j)).getLsbD i)) := by
  induction ns generalizing acc with
  | nil => simp
  | cons n rest ih =>
    rw [List.foldl_cons, ih]
    have hc := getLsbD_columnsEqual q n j hj
    by_cases h : column q j = n
    · subst h
      cases hb : (f (column q j)).getLsbD i <;> simp [BitVec.getLsbD_or, hc, -BitVec.getLsbD_eq_getElem]
    · cases hb : (f n).getLsbD i <;> simp [h, BitVec.getLsbD_or, hc, -BitVec.getLsbD_eq_getElem]

theorem mem_nibbles (n : BitVec 4) : n ∈ nibbles := by revert n; decide

theorem getLsbD_columnsWord (f : BitVec 4 → BitVec 4) (q : Quad) (i j : Nat) (hj : j < 32) :
    (columnsWord f q i).getLsbD j = (f (column q j)).getLsbD i := by
  rw [columnsWord, getLsbD_columnsFold _ _ _ _ hj]
  simp [mem_nibbles]

theorem nibble_of_bits (n : BitVec 4) :
    BitVec.ofNat 4 ((n.getLsbD 0).toNat + 2 * (n.getLsbD 1).toNat + 4 * (n.getLsbD 2).toNat + 8 * (n.getLsbD 3).toNat) = n := by
  revert n; decide

theorem column_mapColumns (f : BitVec 4 → BitVec 4) (q : Quad) (j : Nat) (hj : j < 32) :
    column (mapColumns f q) j = f (column q j) := by
  rw [column]
  simp only [mapColumns, getLsbD_columnsWord _ _ _ _ hj]
  exact nibble_of_bits _

theorem Quad.ext_columns {p q : Quad} (h : ∀ j < 32, column p j = column q j) : p = q := by
  have hb : ∀ j < 32, p.r0.getLsbD j = q.r0.getLsbD j ∧ p.r1.getLsbD j = q.r1.getLsbD j ∧
      p.r2.getLsbD j = q.r2.getLsbD j ∧ p.r3.getLsbD j = q.r3.getLsbD j := by
    intro j hj
    have hp := column_getLsbD p j
    have hq := column_getLsbD q j
    rw [h j hj] at hp
    exact ⟨hp.1.symm.trans hq.1, hp.2.1.symm.trans hq.2.1, hp.2.2.1.symm.trans hq.2.2.1, hp.2.2.2.symm.trans hq.2.2.2⟩
  cases p; cases q
  congr 1 <;> apply BitVec.eq_of_getLsbD_eq <;> intro j hj
  · exact (hb j hj).1
  · exact (hb j hj).2.1
  · exact (hb j hj).2.2.1
  · exact (hb j hj).2.2.2

theorem mapColumns_mapColumns (f g : BitVec 4 → BitVec 4) (q : Quad) :
    mapColumns g (mapColumns f q) = mapColumns (fun n => g (f n)) q := by
  apply Quad.ext_columns
  intro j hj
  simp only [column_mapColumns _ _ _ hj]

theorem mapColumns_id (q : Quad) : mapColumns (fun n => n) q = q := by
  apply Quad.ext_columns
  intro j hj
  rw [column_mapColumns _ _ _ hj]

theorem getLsbD_rotl32 (v : Word) (n i : Nat) (hn : n < 32) (hi : i < 32) :
    (rotl32 v n).getLsbD i = v.getLsbD ((i + 32 - n) % 32) := by
  rw [rotl32, BitVec.getLsbD_or, BitVec.getLsbD_shiftLeft, BitVec.getLsbD_ushiftRight]
  by_cases h : i < n
  · rw [show (i + 32 - n) % 32 = 32 - n + i by omega]; simp [h]
  · rw [show (i + 32 - n) % 32 = i - n by omega, BitVec.getLsbD_of_ge v (32 - n + i) (by omega)]; simp [h, hi]

theorem getLsbD_rotr32 (v : Word) (n i : Nat) (hn : n < 32) (hi : i < 32) :
    (rotr32 v n).getLsbD i = v.getLsbD ((i + n) % 32) := by
  rw [rotr32, getLsbD_rotl32 _ _ _ (by omega) hi]; congr 1; omega

theorem rotr32_rotl32 (v : Word) (n : Nat) (hn : n < 32) : rotr32 (rotl32 v n) n = v := by
  apply BitVec.eq_of_getLsbD_eq; intro i hi
  rw [getLsbD_rotr32 _ _ _ hn hi, getLsbD_rotl32 _ _ _ hn (by omega)]; congr 1; omega

theorem rotl32_rotr32 (v : Word) (n : Nat) (hn : n < 32) : rotl32 (rotr32 v n) n = v := by
  apply BitVec.eq_of_getLsbD_eq; intro i hi
  rw [getLsbD_rotl32 _ _ _ hn hi, getLsbD_rotr32 _ _ _ hn (by omega)]; congr 1; omega

theorem rotl32_xor (v w : Word) (n : Nat) (hn : n < 32) : rotl32 (v ^^^ w) n = rotl32 v n ^^^ rotl32 w n := by
  apply BitVec.eq_of_getLsbD_eq; intro i hi
  simp only [BitVec.getLsbD_xor, getLsbD_rotl32 _ _ _ hn hi]


theorem le32_bytesLe (w : Word) :
    le32 (w.extractLsb' 0 8) (w.extractLsb' 8 8) (w.extractLsb' 16 8) (w.extractLsb' 24 8) = w := by
  apply BitVec.eq_of_getLsbD_eq
  intro i hi
  simp only [le32, BitVec.getLsbD_or, BitVec.getLsbD_shiftLeft, BitVec.getLsbD_setWidth, BitVec.getLsbD_extractLsb']
  by_cases h1 : i < 8
  · simp [h1, hi, show i < 16 by omega, show i < 24 by omega]
  by_cases h2 : i < 16
  · simp [h1, h2, hi, show i < 24 by omega, show i - 8 < 8 by omega, show i - 8 < 32 by omega, show 8 + (i - 8) = i by omega]
  by_cases h3 : i < 24
  · simp [h1, h2, h3, hi, show ¬ (i - 8 < 8) by omega, show i - 16 < 8 by omega, show i - 16 < 32 by omega, show 16 + (i - 16) = i by omega]
  · simp [h1, h2, h3, hi, show ¬ (i - 8 < 8) by omega, show ¬ (i - 16 < 8) by omega, show i - 24 < 8 by omega, show i - 24 < 32 by omega, show 24 + (i - 24) = i by omega]

theorem bytesLe_le32 (b0 b1 b2 b3 : Byte) : bytesLe (le32 b0 b1 b2 b3) = [b0, b1, b2, b3] := by
  have key : ∀ k < 4, (le32 b0 b1 b2 b3).extractLsb' (8 * k) 8 = [b0, b1, b2, b3].getD k 0 := by
    intro k hk
    apply BitVec.eq_of_getLsbD_eq
    intro i hi
    simp only [le32, BitVec.getLsbD_or, BitVec.getLsbD_shiftLeft, BitVec.getLsbD_setWidth, BitVec.getLsbD_extractLsb', hi]
    interval_cases k <;> interval_cases i <;> simp [BitVec.getLsbD_of_ge]
  have h0 := key 0 (by decide)
  have h1 := key 1 (by decide)
  have h2 := key 2 (by decide)
  have h3 := key 3 (by decide)
  simp only [Nat.mul_zero, Nat.mul_one, show 8 * 2 = 16 by rfl, show 8 * 3 = 24 by rfl] at h0 h1 h2 h3
  simp only [bytesLe, h0, h1, h2, h3]
  rfl

theorem quadOfBytes_quadBytes (q : Quad) : quadOfBytes (quadBytes q) = q := by
  rcases q with ⟨a, b, c, d⟩
  simp only [quadOfBytes, quadBytes, wordOf, bytesLe, List.cons_append, List.nil_append]
  simp [le32_bytesLe]

theorem quadBytes_length (q : Quad) : (quadBytes q).length = 16 := rfl

theorem quadBytes_quadOfBytes (bs : List Byte) (h : bs.length = 16) : quadBytes (quadOfBytes bs) = bs := by
  match bs, h with
  | [_, _, _, _, _, _, _, _, _, _, _, _, _, _, _, _], _ =>
    simp [quadOfBytes, quadBytes, wordOf, bytesLe_le32]

end Sys2Proof.Machine
end

