-- ==== Sys2Proof/Laws/Decode.lean ====
section
/-! SUPPORT. The byte form of a descriptor, its fields, and the must-be-zero test of the decoder. -/

namespace Sys2Proof.Machine

theorem ofBytes_toBytes (c : Cmd5) : Cmd5.ofBytes c.toBytes = c := by
  rcases c with ⟨a, b, c, d, e⟩
  simp only [Cmd5.ofBytes, Cmd5.toBytes, wordOf, bytesLe, List.cons_append, List.nil_append]
  simp [le32_bytesLe]

theorem toBytes_length (c : Cmd5) : c.toBytes.length = 20 := rfl

theorem toBytes_ofBytes (bs : List Byte) (h : bs.length = 20) : (Cmd5.ofBytes bs).toBytes = bs := by
  match bs, h with
  | [_, _, _, _, _, _, _, _, _, _, _, _, _, _, _, _, _, _, _, _], _ =>
    simp [Cmd5.ofBytes, Cmd5.toBytes, wordOf, bytesLe_le32]

theorem requireZero_ok {fs i j} : requireZero fs i = .ok j ↔ (∀ f ∈ fs, f = 0) ∧ i = j := by
  unfold requireZero; split
  · rename_i h; simp_all
    intro _ f hf; exact h f hf
  · rename_i h; simp_all

theorem w0_of_fields (c : Cmd5) : c.w0 = c.rsv ++ c.op := by
  apply BitVec.eq_of_getLsbD_eq; intro i hi
  simp only [BitVec.getLsbD_append, Cmd5.rsv, Cmd5.op, BitVec.getLsbD_extractLsb']
  by_cases h : i < 8 <;> simp [h, show i - 8 < 24 by omega]
  congr 1; omega

end Sys2Proof.Machine
end

