-- ==== Sys2Proof/Laws/Memory.lean ====
section
/-! SUPPORT. The laws of the data memory: reading after writing, and that every operation keeps the canonical form and
stays inside `DMEM`. -/

namespace Sys2Proof.Machine

theorem Memory.wfFrom_mono {low low' : Nat} (h : low' ≤ low) {m : List Host.Cell} (hm : Memory.wfFrom low m = true) :
    Memory.wfFrom low' m = true := by
  cases m with
  | nil => rfl
  | cons c rest =>
    simp only [Memory.wfFrom, Bool.and_eq_true, decide_eq_true_eq] at hm ⊢
    exact ⟨⟨by omega, hm.1.2⟩, hm.2⟩

theorem memRead_below {low a : Nat} {m : List Host.Cell} (hm : Memory.wfFrom low m = true) (h : a < low) :
    memRead m a = memFill := by
  induction m generalizing low with
  | nil => rfl
  | cons c rest ih =>
    simp only [Memory.wfFrom, Bool.and_eq_true, decide_eq_true_eq] at hm
    simp only [memRead]
    rw [if_neg (by omega)]
    exact ih hm.2 (by omega)

theorem memRead_memWrite_other (m : List Host.Cell) {a c : Nat} (v : Byte) (h : c ≠ a) :
    memRead (memWrite m a v) c = memRead m c := by
  induction m with
  | nil => simp only [memWrite]; split <;> simp [memRead, h]
  | cons cell rest ih =>
    obtain ⟨b, w⟩ := cell
    simp only [memWrite]
    split
    · split <;> simp [memRead, h]
    · split
      · rename_i hab; subst hab
        split <;> simp [memRead, h]
      · simp only [memRead, ih]

theorem memRead_memWrite_same {low : Nat} {m : List Host.Cell} (hm : Memory.wfFrom low m = true) (a : Nat) (v : Byte) :
    memRead (memWrite m a v) a = v := by
  induction m generalizing low with
  | nil => simp only [memWrite]; split <;> simp_all [memRead]
  | cons cell rest ih =>
    obtain ⟨b, w⟩ := cell
    have hb := hm
    simp only [Memory.wfFrom, Bool.and_eq_true, decide_eq_true_eq] at hm
    simp only [memWrite]
    split
    · split
      · subst v
        exact memRead_below (low := b) (by simp only [Memory.wfFrom, Bool.and_eq_true, decide_eq_true_eq]; exact ⟨⟨le_refl _, hm.1.2⟩, hm.2⟩) (by assumption)
      · simp [memRead]
    · split
      · split
        · subst v; rename_i hab; subst hab
          exact memRead_below hm.2 (by omega)
        · simp [memRead]
      · rename_i h1 h2
        simp only [memRead, if_neg h2]
        exact ih hm.2

theorem wfFrom_memWrite {low : Nat} {m : List Host.Cell} (hm : Memory.wfFrom low m = true) {a : Nat} (ha : low ≤ a) (v : Byte) :
    Memory.wfFrom low (memWrite m a v) = true := by
  induction m generalizing low with
  | nil => simp only [memWrite]; split <;> simp_all [Memory.wfFrom]
  | cons cell rest ih =>
    obtain ⟨b, w⟩ := cell
    have hb := hm
    simp only [Memory.wfFrom, Bool.and_eq_true, decide_eq_true_eq] at hm
    simp only [memWrite]
    split
    · split
      · exact hb
      · simp only [Memory.wfFrom, Bool.and_eq_true, decide_eq_true_eq]
        exact ⟨⟨ha, by simp_all⟩, ⟨by omega, hm.1.2⟩, hm.2⟩
    · split
      · rename_i hab; subst hab
        split
        · exact Memory.wfFrom_mono (by omega) hm.2
        · simp only [Memory.wfFrom, Bool.and_eq_true, decide_eq_true_eq]
          exact ⟨⟨ha, by simp_all⟩, hm.2⟩
      · simp only [Memory.wfFrom, Bool.and_eq_true, decide_eq_true_eq]
        exact ⟨hm.1, ih hm.2 (by omega)⟩

theorem wf_memWrite {m : List Host.Cell} (hm : Memory.wf m = true) (a : Nat) (v : Byte) :
    Memory.wf (memWrite m a v) = true := wfFrom_memWrite hm (Nat.zero_le _) v

theorem inside_memWrite {cfg : Config} {m : List Host.Cell} (hm : Memory.inside cfg m = true) {a : Nat}
    (ha : a < cfg.dmemBytes) (v : Byte) : Memory.inside cfg (memWrite m a v) = true := by
  induction m with
  | nil => simp only [memWrite]; split <;> simp [Memory.inside, ha]
  | cons cell rest ih =>
    obtain ⟨b, w⟩ := cell
    have hb := hm
    simp only [Memory.inside, List.all_cons, Bool.and_eq_true, decide_eq_true_eq] at hm ih ⊢
    simp only [memWrite]
    split
    · split
      · simpa [Memory.inside] using hm
      · simpa [Memory.inside, ha] using hm
    · split
      · split
        · exact hm.2
        · simpa [Memory.inside, ha] using hm.2
      · simp only [List.all_cons, Bool.and_eq_true, decide_eq_true_eq]
        exact ⟨hm.1, ih hm.2⟩

theorem memReadBytes_length (m : List Host.Cell) (a n : Nat) : (memReadBytes m a n).length = n := by
  induction n generalizing a with
  | zero => rfl
  | succ n ih => simp [memReadBytes, ih]

theorem memReadBytes_getElem? (m : List Host.Cell) (a n i : Nat) (h : i < n) :
    (memReadBytes m a n)[i]? = some (memRead m (a + i)) := by
  induction n generalizing a i with
  | zero => omega
  | succ n ih =>
    cases i with
    | zero => rfl
    | succ i => simp only [memReadBytes, List.getElem?_cons_succ]; rw [ih (a + 1) i (by omega)]; congr 2; omega

theorem memReadBytes_congr {m m' : List Host.Cell} {a n : Nat} (h : ∀ i, i < n → memRead m (a + i) = memRead m' (a + i)) :
    memReadBytes m a n = memReadBytes m' a n := by
  apply List.ext_getElem?
  intro i
  by_cases hi : i < n
  · rw [memReadBytes_getElem? _ _ _ _ hi, memReadBytes_getElem? _ _ _ _ hi, h i hi]
  · rw [List.getElem?_eq_none (by simp [memReadBytes_length]; omega), List.getElem?_eq_none (by simp [memReadBytes_length]; omega)]

theorem memRead_memWriteBytes_other (bs : List Byte) (m : List Host.Cell) (a c : Nat) (h : c < a ∨ a + bs.length ≤ c) :
    memRead (memWriteBytes m a bs) c = memRead m c := by
  induction bs generalizing m a with
  | nil => rfl
  | cons v rest ih =>
    simp only [memWriteBytes, List.length_cons] at h ⊢
    rw [ih _ _ (by omega), memRead_memWrite_other _ _ (by omega)]

theorem wf_memWriteBytes (bs : List Byte) {m : List Host.Cell} (hm : Memory.wf m = true) (a : Nat) :
    Memory.wf (memWriteBytes m a bs) = true := by
  induction bs generalizing m a with
  | nil => exact hm
  | cons v rest ih => exact ih (wf_memWrite hm a v) (a + 1)

theorem inside_memWriteBytes {cfg : Config} (bs : List Byte) {m : List Host.Cell} (hm : Memory.inside cfg m = true) {a : Nat}
    (ha : a + bs.length ≤ cfg.dmemBytes) : Memory.inside cfg (memWriteBytes m a bs) = true := by
  induction bs generalizing m a with
  | nil => exact hm
  | cons v rest ih =>
    simp only [List.length_cons] at ha
    exact ih (inside_memWrite hm (by omega) v) (by omega)

theorem memRead_memWriteBytes_inside (bs : List Byte) {m : List Host.Cell} (hm : Memory.wf m = true) (a i : Nat) (h : i < bs.length) :
    memRead (memWriteBytes m a bs) (a + i) = bs[i] := by
  induction bs generalizing m a i with
  | nil => simp at h
  | cons v rest ih =>
    cases i with
    | zero =>
      simp only [memWriteBytes, Nat.add_zero, List.getElem_cons_zero]
      rw [memRead_memWriteBytes_other _ _ _ _ (by omega), memRead_memWrite_same hm]
    | succ i =>
      simp only [memWriteBytes, List.getElem_cons_succ]
      rw [show a + (i + 1) = (a + 1) + i by omega]
      exact ih (wf_memWrite hm a v) (a + 1) i (by simpa using h)

theorem memReadBytes_memWriteBytes (bs : List Byte) {m : List Host.Cell} (hm : Memory.wf m = true) (a : Nat) :
    memReadBytes (memWriteBytes m a bs) a bs.length = bs := by
  apply List.ext_getElem?
  intro i
  by_cases hi : i < bs.length
  · rw [memReadBytes_getElem? _ _ _ _ hi, memRead_memWriteBytes_inside _ hm _ _ hi, List.getElem?_eq_getElem hi]
  · rw [List.getElem?_eq_none (by simp [memReadBytes_length]; omega), List.getElem?_eq_none (by omega)]

theorem wf_memOfCells (cfg : Config) (cells : List Host.Cell) : Memory.wf (memOfCells cfg cells) = true := by
  induction cells with
  | nil => rfl
  | cons c rest ih => simp only [memOfCells]; split; exacts [wf_memWrite ih _ _, ih]

theorem inside_memOfCells (cfg : Config) (cells : List Host.Cell) : Memory.inside cfg (memOfCells cfg cells) = true := by
  induction cells with
  | nil => rfl
  | cons c rest ih => simp only [memOfCells]; split; exacts [inside_memWrite ih ‹_› _, ih]

end Sys2Proof.Machine
end

