-- ==== Sys2Proof/Laws/PerInstr.lean ====
section
/-! SUPPORT. One law for every command, stated and proved command by command. -/

namespace Sys2Proof.Laws.EncodingFields

/-- The fixed fields of an encoded command (R45, R47): `W0` is the opcode with `RSV` = 0, and `OP[7:4]` names the engine, 1
for the block cipher and 2 for the stream cipher. -/
def Statement (i : Instr) : Prop :=
  (encode i).w0 = opcode i ∧ (encode i).rsv = 0 ∧
    (encode i).op.extractLsb' 4 4 = (if Machine.isBlockCommand i = true then 1 else 2)

theorem bcKey (a alen : Nat) : Statement (.bcKey a alen) :=
  ⟨rfl, by simp [encode, opcode, Cmd5.rsv], by simp [encode, opcode, Cmd5.op, Machine.isBlockCommand]⟩
theorem bcEnc (a b : Nat) : Statement (.bcEnc a b) :=
  ⟨rfl, by simp [encode, opcode, Cmd5.rsv], by simp [encode, opcode, Cmd5.op, Machine.isBlockCommand]⟩
theorem bcDec (a b : Nat) : Statement (.bcDec a b) :=
  ⟨rfl, by simp [encode, opcode, Cmd5.rsv], by simp [encode, opcode, Cmd5.op, Machine.isBlockCommand]⟩
theorem bcClr : Statement .bcClr := ⟨rfl, rfl, by decide⟩
theorem scInit (a alen b blen : Nat) : Statement (.scInit a alen b blen) :=
  ⟨rfl, by simp [encode, opcode, Cmd5.rsv], by simp [encode, opcode, Cmd5.op, Machine.isBlockCommand]⟩
theorem scXor (a alen b blen : Nat) : Statement (.scXor a alen b blen) :=
  ⟨rfl, by simp [encode, opcode, Cmd5.rsv], by simp [encode, opcode, Cmd5.op, Machine.isBlockCommand]⟩
theorem scClr : Statement .scClr := ⟨rfl, rfl, by decide⟩

end Sys2Proof.Laws.EncodingFields
end

