-- ==== Sys2Proof/Laws/Stream.lean ====
section
/-! SUPPORT. What the loop of `SC.XOR` does, in terms of the stream state and of single bytes of memory. -/

namespace Sys2Proof.Machine

theorem streamAfter_add (cfg : Config) (e : Sce) (n k : Nat) :
    streamAfter cfg e (n + k) = streamAfter cfg (streamAfter cfg e n) k := by
  induction n generalizing e with
  | zero => rw [Nat.zero_add]; rfl
  | succ n ih => rw [Nat.succ_add]; exact ih _

theorem keystreamByte_add (cfg : Config) (e : Sce) (n p : Nat) :
    keystreamByte cfg e (n + p) = keystreamByte cfg (streamAfter cfg e n) p := by
  rw [keystreamByte, streamAfter_add]; rfl

theorem keystreamByte_succ (cfg : Config) (e : Sce) (p : Nat) :
    keystreamByte cfg e (p + 1) = keystreamByte cfg (advance (refill cfg e)) p := rfl

theorem refill_ksPos_le {cfg : Config} {e : Sce} (h : e.ksPos ≤ 16) : (refill cfg e).ksPos ≤ 15 := by
  unfold refill; split
  · simp
  · omega

theorem streamAfter_ksPos_le {cfg : Config} {e : Sce} (h : e.ksPos ≤ 16) (n : Nat) : (streamAfter cfg e n).ksPos ≤ 16 := by
  induction n generalizing e with
  | zero => exact h
  | succ n ih => exact ih (by have := refill_ksPos_le (cfg := cfg) h; simp; omega)

theorem streamAfter_valid (cfg : Config) (e : Sce) (n : Nat) : (streamAfter cfg e n).valid = e.valid := by
  induction n generalizing e with
  | zero => rfl
  | succ n ih => simp [streamAfter, ih]

/-- The loop moves the stream on by one byte a turn, whatever stands in memory. -/
theorem xorLoop_fst (cfg : Config) (a b : Nat) (e : Sce) (m : List Host.Cell) (n : Nat) :
    (xorLoop cfg a b e m n).1 = streamAfter cfg e n := by
  induction n generalizing a b e m with
  | zero => rfl
  | succ n ih => exact ih _ _ _ _

/-- The loop over `n + k` bytes is the loop over `n` bytes, then the loop over the next `k`. -/
theorem xorLoop_add (cfg : Config) (a b : Nat) (e : Sce) (m : List Host.Cell) (n k : Nat) :
    xorLoop cfg a b e m (n + k) =
      xorLoop cfg (a + n) (b + n) (xorLoop cfg a b e m n).1 (xorLoop cfg a b e m n).2 k := by
  induction n generalizing a b e m with
  | zero => rw [Nat.zero_add]; rfl
  | succ n ih =>
    rw [Nat.succ_add]
    simp only [xorLoop]
    rw [ih, show a + 1 + n = a + (n + 1) by omega, show b + 1 + n = b + (n + 1) by omega]

theorem wf_xorLoop (cfg : Config) (a b : Nat) (e : Sce) {m : List Host.Cell} (hm : Memory.wf m = true) (n : Nat) :
    Memory.wf (xorLoop cfg a b e m n).2 = true := by
  induction n generalizing a b e m with
  | zero => exact hm
  | succ n ih => exact ih _ _ _ (wf_memWrite hm _ _)

theorem inside_xorLoop (cfg : Config) (a b : Nat) (e : Sce) {m : List Host.Cell} (hm : Memory.inside cfg m = true) (n : Nat)
    (hb : b + n ≤ cfg.dmemBytes) : Memory.inside cfg (xorLoop cfg a b e m n).2 = true := by
  induction n generalizing a b e m with
  | zero => exact hm
  | succ n ih => exact ih _ _ _ (inside_memWrite hm (by omega) _) (by omega)

/-- The loop writes no byte outside its destination range. -/
theorem memRead_xorLoop_other (cfg : Config) (a b : Nat) (e : Sce) (m : List Host.Cell) (n : Nat) {adr : Nat}
    (h : adr < b ∨ b + n ≤ adr) : memRead (xorLoop cfg a b e m n).2 adr = memRead m adr := by
  induction n generalizing a b e m with
  | zero => rfl
  | succ n ih =>
    simp only [xorLoop]
    rw [ih _ _ _ _ (by omega), memRead_memWrite_other _ _ (by omega)]

/-- With source and destination disjoint or the same, byte `p` of the destination is byte `p` of the source XOR byte `p` of
the keystream. -/
theorem memRead_xorLoop_inside (cfg : Config) (a b : Nat) (e : Sce) {m : List Host.Cell} (hm : Memory.wf m = true) (n : Nat)
    (hd : a = b ∨ b + n ≤ a ∨ a + n ≤ b) {p : Nat} (hp : p < n) :
    memRead (xorLoop cfg a b e m n).2 (b + p) = memRead m (a + p) ^^^ keystreamByte cfg e p := by
  induction n generalizing a b e m p with
  | zero => omega
  | succ n ih =>
    simp only [xorLoop]
    cases p with
    | zero =>
      rw [memRead_xorLoop_other _ _ _ _ _ _ (by omega), Nat.add_zero, Nat.add_zero, memRead_memWrite_same hm]
      rfl
    | succ p =>
      rw [show b + (p + 1) = b + 1 + p by omega, ih _ _ _ (wf_memWrite hm _ _) (by omega) (by omega),
        memRead_memWrite_other _ _ (by omega), keystreamByte_succ, show a + (p + 1) = a + 1 + p by omega]

end Sys2Proof.Machine
end

