-- ==== Sys2Proof/Tests/Slice0.lean ====
section
/-! SUPPORT. Tests: ill-formed terms, words written out from the encoding, vectors of spec/95_test_vectors.md, and for every
statement with hypotheses a concrete state and operands that meet them. -/

namespace Sys2Proof.Tests

open Sys2Proof Sys2Proof.Machine

/-! ### Small states -/

/-- A key is set. -/
def keyed : State := { State.reset with bce := { State.reset.bce with valid := true } }

/-- A session is open and its pending keystream empty. -/
def session : State := { State.reset with sce := { State.reset.sce with ksPos := 16, valid := true } }

/-- An abort is recorded. -/
def aborted : State := { State.reset with abort := true, code := 0x09 }

/-- The `STATUS` word after an outcome. -/
def statusAfter : Host.Outcome State Fault Refusal → Option Word
  | .next s => some s.statusWord
  | _ => none

/-- The state after an outcome that gives one. -/
def stateAfter (s : State) : Host.Outcome State Fault Refusal → State
  | .next t => t
  | _ => s

/-! ### WellFormed: one ill-formed term for each check -/

theorem test_wf_bcKey_a : (Instr.bcKey (2 ^ 32) 16).wellFormed = false := by decide
theorem test_wf_bcKey_alen : (Instr.bcKey 0 (2 ^ 32)).wellFormed = false := by decide
theorem test_wf_bcEnc_a : (Instr.bcEnc (2 ^ 32) 0).wellFormed = false := by decide
theorem test_wf_bcEnc_b : (Instr.bcEnc 0 (2 ^ 32)).wellFormed = false := by decide
theorem test_wf_bcDec_a : (Instr.bcDec (2 ^ 32) 0).wellFormed = false := by decide
theorem test_wf_bcDec_b : (Instr.bcDec 0 (2 ^ 32)).wellFormed = false := by decide
theorem test_wf_scInit : ((Instr.scInit (2 ^ 32) 0 0 0).wellFormed || (Instr.scInit 0 (2 ^ 32) 0 0).wellFormed
    || (Instr.scInit 0 0 (2 ^ 32) 0).wellFormed || (Instr.scInit 0 0 0 (2 ^ 32)).wellFormed) = false := by decide
theorem test_wf_scXor : ((Instr.scXor (2 ^ 32) 0 0 0).wellFormed || (Instr.scXor 0 (2 ^ 32) 0 0).wellFormed
    || (Instr.scXor 0 0 (2 ^ 32) 0).wellFormed || (Instr.scXor 0 0 0 (2 ^ 32)).wellFormed) = false := by decide

/-! ### Decode: words written out from R45 to R48 (vector V42), and the byte form of R46 -/

theorem test_decode_bcKey : decode ⟨0x00000010, 0x00000000, 0x00000010, 0, 0⟩ = .ok (.bcKey 0x0000 16) := by decide
theorem test_decode_bcEnc : decode ⟨0x00000011, 0x00000100, 0, 0x00000200, 0⟩ = .ok (.bcEnc 0x0100 0x0200) := by decide
theorem test_decode_bcDec : decode ⟨0x00000012, 0x00000200, 0, 0x00000200, 0⟩ = .ok (.bcDec 0x0200 0x0200) := by decide
theorem test_decode_bcClr : decode ⟨0x00000013, 0, 0, 0, 0⟩ = .ok .bcClr := by decide
theorem test_decode_scInit : decode ⟨0x00000020, 0x00000000, 0x00000010, 0x00000020, 0x00000008⟩ = .ok (.scInit 0x0000 16 0x0020 8) := by
  decide
theorem test_decode_scXor : decode ⟨0x00000021, 0x00000105, 0x00000014, 0x00000205, 0x00000020⟩ = .ok (.scXor 0x0105 20 0x0205 32) := by
  decide
theorem test_decode_scClr : decode ⟨0x00000022, 0, 0, 0, 0⟩ = .ok .scClr := by decide
theorem test_decode_bytes : decodeBytes [0x21, 0, 0, 0, 0x05, 0x01, 0, 0, 0x14, 0, 0, 0, 0x05, 0x02, 0, 0, 0x20, 0, 0, 0]
    = .ok (.scXor 0x0105 20 0x0205 32) := by decide
theorem test_decode_short : decodeBytes [0x13, 0, 0, 0] = .error .wrongLength := by decide
theorem test_decode_illegal : decode ⟨0x80000010, 0, 0x00000010, 0, 0⟩ = .error .reservedNotZero ∧
    decode ⟨0x00000011, 0x00000100, 0x00000005, 0x00000200, 0⟩ = .error .operandNotZero ∧
    decode ⟨0x00000022, 0, 0, 0, 0x00000001⟩ = .error .operandNotZero := by decide
theorem test_encode_scXor : encodeBytes (.scXor 0x0105 20 0x0205 32)
    = [0x21, 0, 0, 0, 0x05, 0x01, 0, 0, 0x14, 0, 0, 0, 0x05, 0x02, 0, 0, 0x20, 0, 0, 0] := by decide
theorem test_table_word : decodeTableWord 160 0x0000000000000200000000000000010000000011 = some (.bcEnc 0x0100 0x0200) := by decide
theorem test_table_word_short : decodeTableWord 32 0x00000013 = some .bcClr := by decide
theorem test_assemble : parseLine ['B', 'C', '.', 'E', 'N', 'C', ' ', '0', 'x', '0', '1', '0', '0', ',', ' ', '5', '1', '2']
    = some (.bcEnc 0x0100 0x0200) := by decide

/-! ### Vectors of spec/95_test_vectors.md -/

/-- V10, row 0. -/
theorem test_substitution : subst 0 ⟨0x0000aaaa, 0x0000cccc, 0x0000f0f0, 0x0000ff00⟩ = ⟨0xffff52cd, 0xffff19b5, 0x00009764, 0x0000c396⟩ := by
  decide +kernel
/-- V10, row 5. -/
theorem test_inverse_substitution :
    substInv 5 ⟨0x0000aaaa, 0x0000cccc, 0x0000f0f0, 0x0000ff00⟩ = ⟨0x00001d6a, 0x00005b86, 0x000036d2, 0xffff61cb⟩ := by
  decide +kernel
/-- V16, row 9. -/
theorem test_diffusion : diffuse ⟨0x01234567, 0x89abcdef, 0xfedcba98, 0x76543210⟩ = ⟨0x835d3bd5, 0x2fc5f218, 0xc97fdbc8, 0xeb73fbe2⟩ ∧
    diffuseInv ⟨0x01234567, 0x89abcdef, 0xfedcba98, 0x76543210⟩ = ⟨0x2ea63fb7, 0xd27ba548, 0x7a2b14cd, 0xce0320af⟩ := by decide +kernel

/-- V14: the packed words of a 24-byte key, with the marker. -/
theorem test_pack : pack ((List.range 24).map (BitVec.ofNat 8)) =
    [0x03020100, 0x07060504, 0x0b0a0908, 0x0f0e0d0c, 0x13121110, 0x17161514, 1, 0] := by decide +kernel

/-- V12: the 16-byte key `asdfasdfasdfasdf`. -/
def keyV12 : List Byte := [0x61, 0x73, 0x64, 0x66, 0x61, 0x73, 0x64, 0x66, 0x61, 0x73, 0x64, 0x66, 0x61, 0x73, 0x64, 0x66]

/-- V12: the first and the last round-key word. -/
theorem test_key_schedule : (roundKeys keyV12)[0] = 0x19cc84f1 ∧ (roundKeys keyV12)[131] = 0x3bab1d58 := by decide +kernel

/-- V1 and V18: the first block of the known-answer vector of the source. -/
theorem test_encrypt_block : encBlock (roundKeys keyV12) ⟨0x69616c70, 0x6574206e, 0x68207478, 0x20656865⟩
    = ⟨0xb18c84ec, 0xadc36ad5, 0x70c1d378, 0x9fda44ca⟩ := by decide +kernel

/-- V30, rows 3, 4 and 7. -/
theorem test_g : gValue 0xffffffff 0 = 0xffffffff ∧ gValue 0xffffffff 1 = 0 ∧ gValue 0x12345678 0x9abcdef0 = 0x2c213949 := by decide +kernel

/-- V34, mode `add`, row 4, and mode `sub`, row 2. -/
theorem test_counter_update :
    counterUpdate .add scfPub.laneA (Vector.replicate 8 0xffffffff) true = (scfPub.laneA, true) ∧
    counterUpdate .sub scfPub.laneA (Vector.replicate 8 0) true =
      (#v[0xb2cb2cb2, 0x2cb2cb2c, 0xcb2cb2cb, 0xb2cb2cb2, 0x2cb2cb2c, 0xcb2cb2cb, 0xb2cb2cb2, 0x2cb2cb2c], true) := by decide +kernel

/-- V35, mode `add`, second call. -/
theorem test_next_state : (advances refConfig State.reset.sce 2).x =
    #v[0x2824f5c9, 0x4a33bad6, 0x87333564, 0x05ece506, 0x697eec69, 0xff210acb, 0xf08eb82c, 0xeecf5c87] ∧
    (advances refConfig State.reset.sce 2).carry = true := by decide +kernel

/-- V31: chunk 0 of the zero key with an absent IV. -/
theorem test_first_chunk :
    (extract refConfig (initSession refConfig (List.replicate 16 0) (List.replicate 8 0) State.reset.sce)).ksbuf =
      #v[0xed, 0xb7, 0x05, 0x67, 0x37, 0x5d, 0xcd, 0x7c, 0xd8, 0x95, 0x54, 0xf8, 0x5e, 0x27, 0xa7, 0xc6] := by decide +kernel

/-- R142, R145: one byte as text; stripping takes every trailing zero. -/
theorem test_text : hexEnc [0xec, 0x0a] = ['e', 'c', '0', 'a'] ∧ hexDec ['E', 'c', '0', 'A'] = some [0xec, 0x0a] ∧
    hexDec ['z', 'z'] = none ∧ hexDec ['a'] = none ∧ zstrip [0x61, 0, 0x62, 0, 0] = [0x61, 0, 0x62] := by decide

/-! ### One step of each command (V43, V44, V45) -/

theorem test_bcKey_range : statusAfter (exec (.bcKey 0xFFFFFFF0 0x20) State.reset) = some 0x00000109 ∧
    statusAfter (exec (.bcKey 0x3F0 40) State.reset) = some 0x00000109 := by decide
theorem test_bcKey_size : statusAfter (exec (.bcKey 0x3F0 10) State.reset) = some 0x00000001 ∧
    statusAfter (exec (.bcKey 0x3F0 16) State.reset) = some 0x00000200 := by decide
theorem test_bcEnc_order : statusAfter (exec (.bcEnc 0x3F8 0x200) State.reset) = some 0x00000008 ∧
    statusAfter (exec (.bcEnc 0x3F8 0x200) keyed) = some 0x00000309 := by decide
theorem test_bcEnc_last : statusAfter (exec (.bcEnc 0x3F0 0x3F0) keyed) = some 0x00000200 := by decide
theorem test_bcDec_range : statusAfter (exec (.bcDec 0x100 0x3F1) keyed) = some 0x00000309 ∧
    statusAfter (exec (.bcDec 0x100 0x3F0) keyed) = some 0x00000200 := by decide
theorem test_bcClr : statusAfter (exec .bcClr keyed) = some 0x00000000 ∧ statusAfter (exec .bcClr State.reset) = some 0x00000000 := by
  decide
theorem test_scInit_lengths : statusAfter (exec (.scInit 0 15 0x20 7) State.reset) = some 0x00000002 ∧
    statusAfter (exec (.scInit 0 16 0x20 9) State.reset) = some 0x00000003 := by decide
theorem test_scInit_range : statusAfter (exec (.scInit 0 16 0x400 0) State.reset) = some 0x00000400 ∧
    statusAfter (exec (.scInit 0 16 0x401 0) State.reset) = some 0x00000109 := by decide
theorem test_scXor_checks : statusAfter (exec (.scXor 0x100 1 0x0FF 2) session) = some 0x00000505 ∧
    statusAfter (exec (.scXor 0x100 16 0x108 8) session) = some 0x00000504 ∧
    statusAfter (exec (.scXor 0x3F8 16 0x200 8) session) = some 0x00000509 ∧
    statusAfter (exec (.scXor 0x100 16 0x200 8) State.reset) = some 0x00000008 := by decide
theorem test_scXor_empty : statusAfter (exec (.scXor 0x400 0 0x400 0) session) = some 0x00000400 ∧
    statusAfter (exec (.scXor 0x100 0 0x0F0 32) session) = some 0x00000400 := by decide
theorem test_scClr : statusAfter (exec .scClr session) = some 0x00000000 ∧ statusAfter (exec .scClr aborted) = some 0x0000010A := by
  decide
theorem test_illegal : statusAfter (runDescriptor ⟨0x30, 0, 0, 0, 0⟩ aborted) = some 0x0000010A ∧
    statusAfter (runDescriptor ⟨0x11, 0x100, 5, 0x200, 0⟩ State.reset) = some 0x00000007 ∧
    statusAfter (runDescriptor ⟨0x13, 1, 0, 0, 0⟩ keyed) = some 0x00000207 := by decide

/-! ### For every statement with hypotheses, values that meet them -/

theorem reset_inv : State.reset.Inv := ⟨by decide, by decide, by decide, by decide, by decide, by decide⟩
theorem reset_usable : State.reset.Usable := ⟨reset_inv, rfl, by decide⟩

theorem test_witness_DecodeOfEncodeGivesTheCommand :
    (Instr.scXor (2 ^ 32 - 1) (2 ^ 32 - 1) (2 ^ 32 - 1) (2 ^ 32 - 1)).wellFormed = true := by decide
theorem test_witness_EncodeOfDecodeGivesTheDescriptor :
    decode ⟨0x21, 0xFFFFFFFF, 0xFFFFFFFF, 0xFFFFFFFF, 0xFFFFFFFF⟩ = .ok (.scXor (2 ^ 32 - 1) (2 ^ 32 - 1) (2 ^ 32 - 1) (2 ^ 32 - 1)) := by
  decide
theorem test_witness_IllegalDescriptors_clauses :
    decode ⟨0x14, 0, 0, 0, 0⟩ = .error .unknownOpcode ∧ decode ⟨0x100, 0, 0, 0, 0⟩ = .error .reservedNotZero ∧
    decode ⟨0x80000020, 0, 0, 0, 0⟩ = .error .reservedNotZero ∧
    decode ⟨0x10, 0, 0, 1, 0⟩ = .error .operandNotZero ∧ decode ⟨0x10, 0, 0, 0, 0x80000000⟩ = .error .operandNotZero ∧
    decode ⟨0x11, 0, 1, 0, 0⟩ = .error .operandNotZero ∧ decode ⟨0x12, 0, 0, 0, 1⟩ = .error .operandNotZero ∧
    decode ⟨0x13, 0, 0, 1, 0⟩ = .error .operandNotZero ∧ decode ⟨0x22, 1, 0, 0, 0⟩ = .error .operandNotZero := by decide
theorem test_witness_IllegalDescriptorsFailAndChangeOnlyTheCode :
    decode ⟨0, 0, 0, 0, 0⟩ = .error .unknownOpcode ∧ State.reset.abort = false := by decide
theorem test_witness_ListingAssemblesBack : (Instr.bcKey 0 (2 ^ 32 - 1)).wellFormed = true := by decide
theorem test_witness_StepRunsTheDecodedCommand :
    (State.reset.withFetchWord 160 0x13).inbox = [.command ⟨0x13, 0, 0, 0, 0⟩] ∧ decode ⟨0x13, 0, 0, 0, 0⟩ = .ok .bcClr := by decide
theorem test_witness_AbortedRefusesEveryDescriptor : aborted.abort = true := rfl
/-- Idle; a read that ends with the memory; an empty write at its end; and the first access past it. -/
theorem test_witness_HostMovesLeaveTheEnginesAlone : State.reset.inbox = [] ∧ 0x3F0 + 16 ≤ State.reset.cfg.dmemBytes ∧
    0x400 + ([] : List Byte).length ≤ State.reset.cfg.dmemBytes ∧ Memory.wf State.reset.dmem = true ∧
    State.reset.cfg.dmemBytes < 0x3F0 + 17 ∧ State.reset.cfg.dmemBytes < 0x400 + [(0 : Byte)].length := by decide
theorem test_witness_BcKeyCompletes : State.reset.abort = false ∧ 0x3F0 + 16 ≤ State.reset.cfg.dmemBytes ∧
    0x3E8 + 24 ≤ State.reset.cfg.dmemBytes ∧ 0x3E0 + 32 ≤ State.reset.cfg.dmemBytes := by decide
theorem test_witness_BcEncCompletes : keyed.abort = false ∧ keyed.bce.valid = true ∧ 0x3F0 + 16 ≤ keyed.cfg.dmemBytes ∧
    Memory.wf keyed.dmem = true := by decide
theorem test_witness_BcDecCompletes : keyed.abort = false ∧ keyed.bce.valid = true ∧ 0x3F0 + 16 ≤ keyed.cfg.dmemBytes ∧
    0x3E8 + 16 ≤ keyed.cfg.dmemBytes ∧ Memory.wf keyed.dmem = true := by decide
theorem test_witness_BcClrCompletes : keyed.abort = false ∧ keyed.bce.valid = true ∧
    State.reset.abort = false ∧ State.reset.bce.valid = false := by decide
theorem test_witness_ScInitCompletes : session.abort = false ∧ 0x3F0 + 16 ≤ session.cfg.dmemBytes ∧
    0x3F8 + 8 ≤ session.cfg.dmemBytes ∧ 0x400 + 0 ≤ session.cfg.dmemBytes := by decide
/-- Disjoint ranges that touch, one inside its spare capacity at the end of memory, in place, and empty. -/
theorem test_witness_ScXorCompletes : session.abort = false ∧ session.sce.valid = true ∧ Memory.wf session.dmem = true ∧
    0x3F0 + 8 ≤ session.cfg.dmemBytes ∧ 0x3F8 + 8 ≤ session.cfg.dmemBytes ∧ 0x3F0 + 8 ≤ 0x3F8 ∧
    0x400 + 0 ≤ session.cfg.dmemBytes := by decide
theorem test_witness_ScClrCompletes : session.abort = false := rfl

/-- Each branch of the statement about `BC.KEY` from its descriptor on. -/
theorem test_witness_BcKeyDescriptorFollowsItsRule : (⟨0x10, 0x3F0, 16, 0, 0⟩ : Cmd5).op = 0x10 ∧
    statusAfter (runDescriptor ⟨0x10, 0x3F0, 16, 0, 0⟩ aborted) = some 0x0000010A ∧
    statusAfter (runDescriptor ⟨0x110, 0x3F0, 16, 0, 0⟩ State.reset) = some 0x00000007 ∧
    statusAfter (runDescriptor ⟨0x10, 0x3F1, 16, 0, 0⟩ State.reset) = some 0x00000109 ∧
    statusAfter (runDescriptor ⟨0x10, 0x3F0, 15, 0, 0⟩ State.reset) = some 0x00000001 ∧
    statusAfter (runDescriptor ⟨0x10, 0x3F0, 16, 0, 0⟩ State.reset) = some 0x00000200 := by decide
/-- Each branch of the statement about `BC.ENC` and `BC.DEC` from the descriptor on. -/
theorem test_witness_BlockDescriptorsFollowTheirRules : (⟨0x11, 0, 0, 0x3F0, 0⟩ : Cmd5).op = 0x11 ∧
    (⟨0x12, 0, 0, 0x3F0, 0⟩ : Cmd5).op = 0x12 ∧
    statusAfter (runDescriptor ⟨0x11, 0, 0, 0x3F0, 0⟩ aborted) = some 0x0000010A ∧
    statusAfter (runDescriptor ⟨0x12, 0, 0, 0x3F0, 1⟩ keyed) = some 0x00000207 ∧
    statusAfter (runDescriptor ⟨0x11, 0, 0, 0x3F1, 0⟩ State.reset) = some 0x00000008 ∧
    statusAfter (runDescriptor ⟨0x12, 0, 0, 0x3F1, 0⟩ keyed) = some 0x00000309 ∧
    statusAfter (runDescriptor ⟨0x12, 0, 0, 0x3F0, 0⟩ keyed) = some 0x00000200 := by decide
/-- Each branch of the statement about `SC.INIT` from its descriptor on. -/
theorem test_witness_ScInitDescriptorFollowsItsRule : (⟨0x20, 0, 16, 0x3F8, 8⟩ : Cmd5).op = 0x20 ∧
    statusAfter (runDescriptor ⟨0x20, 0, 16, 0x3F8, 8⟩ aborted) = some 0x0000010A ∧
    statusAfter (runDescriptor ⟨0x120, 0, 16, 0x3F8, 8⟩ State.reset) = some 0x00000007 ∧
    statusAfter (runDescriptor ⟨0x20, 0, 16, 0x3F9, 8⟩ State.reset) = some 0x00000109 ∧
    statusAfter (runDescriptor ⟨0x20, 0, 17, 0x3F8, 7⟩ State.reset) = some 0x00000002 ∧
    statusAfter (runDescriptor ⟨0x20, 0, 16, 0x3F8, 7⟩ State.reset) = some 0x00000003 ∧
    statusAfter (runDescriptor ⟨0x20, 0, 16, 0x3F8, 8⟩ State.reset) = some 0x00000400 := by decide

theorem test_witness_FailedCommandsChangeNothingElse :
    ∃ t, runDescriptor ⟨0, 0, 0, 0, 0⟩ State.reset = .next t ∧ t.code ≠ 0x00 := ⟨_, rfl, by decide⟩
theorem test_witness_CommandsKeepTheirFrame : ∃ t, exec (.bcEnc 0x3F0 0x3F0) keyed = .next t := exec_answers _ _
theorem test_witness_CommandsReadOnlyTheirFootprint : (∃ t, exec (.bcEnc 0 0x10) keyed = .next t) ∧
    Memory.wf keyed.dmem = true ∧ Memory.wf [(0x100, 0xAA)] = true ∧
    (∀ a, inSpan (readRange (.bcEnc 0 0x10)) a ∨ inSpan (readRange2 (.bcEnc 0 0x10)) a →
      memRead [(0x100, 0xAA)] a = memRead keyed.dmem a) := by
  refine ⟨exec_answers _ _, rfl, rfl, fun a h => ?_⟩
  simp only [inSpan, readRange, readRange2] at h
  simp only [memRead, if_neg (show ¬ a = 0x100 by omega)]
  rfl
theorem test_witness_EnginesAreIndependent :
    (isBlockCommand .bcClr = true ∧ ∃ t, exec .bcClr keyed = .next t) ∧
    (isBlockCommand .scClr = false ∧ ∃ t, exec .scClr session = .next t) :=
  ⟨⟨rfl, exec_answers _ _⟩, ⟨rfl, exec_answers _ _⟩⟩
theorem test_witness_OnlyResetLeavesTheAbortedCondition :
    aborted.abort = true ∧ (∃ t, serve .readStatus aborted = .next t) ∧ HostMove.resets .readStatus = false ∧
    (∃ t, serve (.writeMem 0 [1]) aborted = .next t) ∧ HostMove.resets (.writeMem 0 [1]) = false :=
  ⟨rfl, ⟨_, rfl⟩, rfl, ⟨_, rfl⟩, rfl⟩
theorem test_witness_EveryStepKeepsTheInvariant :
    State.reset.Inv ∧ ∃ t, step (State.reset.withFetchWord 160 0x13) = .next t :=
  ⟨reset_inv, _, rfl⟩
/-- The machine after power-on, and the same machine with other round keys, another carry and another buffer. -/
theorem test_witness_UnspecifiedRegistersAreNeverObserved :
    State.reset.VisibleEq { State.reset with
      bce := { rk := Vector.replicate 132 1, valid := false }
      sce := { State.reset.sce with carry := true, ksbuf := Vector.replicate 16 7, ksPos := 5 } } :=
  ⟨rfl, rfl, rfl, rfl, rfl, rfl, rfl, rfl, rfl, nofun, nofun, nofun, nofun, nofun, nofun⟩
/-- Two open sessions that differ in a consumed byte of the buffer only. -/
theorem test_witness_UnspecifiedRegistersAreNeverObserved_session :
    ({ session with sce := { session.sce with ksPos := 1 } } : State).VisibleEq
      { session with sce := { session.sce with ksPos := 1, ksbuf := (Vector.replicate 16 0).set 0 9 } } := by
  refine ⟨rfl, rfl, rfl, rfl, rfl, rfl, rfl, rfl, rfl, nofun, fun _ => rfl, fun _ => rfl, fun _ => rfl, fun _ => rfl, fun _ i h => ?_⟩
  cases i with
  | zero => simp at h
  | succ i => simp [session, State.reset]
theorem test_witness_MemoryIsPlainStorage : Memory.wf [(0, 1), (0xFFFFFFFF, 0xFF)] = true ∧
    Memory.wf (memWrite [(3, 4)] 3 0x00) = true ∧ memWrite [(3, 4)] 3 0x00 = [] := by decide
theorem test_witness_SubstitutionActsOnEachBitPosition : (0 : Nat) < 32 ∧ (31 : Nat) < 32 := by decide
theorem test_witness_PackPlacesKeyWordsAndMarker : (List.replicate 16 (0 : Byte)).length = 16 ∧
    (List.replicate 24 (0 : Byte)).length = 24 ∧ (List.replicate 32 (0 : Byte)).length = 32 := by decide
theorem test_witness_ExpandFollowsTheRecurrence : (List.replicate 8 (0 : Word)).length = 8 := rfl
theorem test_witness_KeyScheduleIsAFunctionOfTheKeyBytes :
    (∃ t, exec (.bcKey 0 16) State.reset = .next t ∧ t.code = 0x00) ∧ (∃ t, exec (.bcKey 0x3F0 16) keyed = .next t ∧ t.code = 0x00) ∧
    memReadBytes State.reset.dmem 0 16 = memReadBytes keyed.dmem 0x3F0 16 ∧ keyV12.length = 16 :=
  ⟨⟨_, exec_succeeds (i := .bcKey 0 16) rfl (by decide), rfl⟩, ⟨_, exec_succeeds (i := .bcKey 0x3F0 16) rfl (by decide), rfl⟩,
    by decide, rfl⟩
theorem test_witness_DecryptingAnEncryptedBlockRestoresIt : Memory.wf keyed.dmem = true ∧
    (∃ t, exec (.bcEnc 0 0x100) keyed = .next t ∧ t.code = 0x00) ∧ 0x3F0 + 16 ≤ keyed.cfg.dmemBytes :=
  ⟨rfl, ⟨_, exec_succeeds (i := .bcEnc 0 0x100) rfl (by decide), rfl⟩, by decide⟩
theorem test_witness_FormulasOfTheReferenceSet : refConfig.scf = scfPub := rfl
theorem test_witness_AbsentIvIsTheZeroIv : 0x3F0 + 16 ≤ State.reset.cfg.dmemBytes ∧ 0x3F8 + 8 ≤ State.reset.cfg.dmemBytes ∧
    0x400 ≤ State.reset.cfg.dmemBytes ∧ memReadBytes State.reset.dmem 0x3F8 8 = List.replicate 8 0 := by decide
theorem test_witness_KeystreamIsAFunctionOfKeyAndIv : State.reset.cfg = session.cfg ∧
    (∃ t, exec (.scInit 0 16 0x20 8) State.reset = .next t ∧ t.code = 0x00) ∧
    (∃ t, exec (.scInit 0x10 16 0x20 8) session = .next t ∧ t.code = 0x00) ∧
    (∃ t, exec (.scInit 0 16 0x400 0) State.reset = .next t ∧ t.code = 0x00) ∧
    memReadBytes State.reset.dmem 0 16 = memReadBytes session.dmem 0x10 16 ∧
    memReadBytes State.reset.dmem 0x20 8 = memReadBytes session.dmem 0x20 8 :=
  ⟨rfl, ⟨_, exec_succeeds (i := .scInit 0 16 0x20 8) rfl (by decide), rfl⟩,
    ⟨_, exec_succeeds (i := .scInit 0x10 16 0x20 8) rfl (by decide), rfl⟩,
    ⟨_, exec_succeeds (i := .scInit 0 16 0x400 0) rfl (by decide), rfl⟩, rfl, rfl⟩
theorem test_witness_KeystreamByteNumbering : session.sce.ksPos = 16 := rfl
theorem test_witness_ExtractionsAreLazy : session.sce.ksPos ≤ 16 ∧ State.reset.sce.ksPos ≤ 16 := by decide
/-- In place, and disjoint ranges that touch, up to the end of memory. -/
theorem test_witness_CutPointsDoNotMatter : session.abort = false ∧ session.sce.valid = true ∧
    0x3E0 + (5 + 11) ≤ session.cfg.dmemBytes ∧ 0x3F0 + (5 + 11) ≤ session.cfg.dmemBytes ∧ 0x3E0 + (5 + 11) ≤ 0x3F0 := by decide
theorem test_witness_CombineIsItsOwnInverse : Memory.wf session.dmem = true ∧
    (∃ t, exec (.scXor 0 0 0 0) session = .next t ∧ t.code = 0x00 ∧ memReadBytes session.dmem 0 0 = memReadBytes t.dmem 0 0) ∧
    (∃ t, exec (.scXor 0x100 1 0x200 1) session = .next t ∧ t.code = 0x00 ∧
      ∃ s' t', s'.cfg = session.cfg ∧ s'.sce = session.sce ∧ Memory.wf s'.dmem = true ∧
        exec (.scXor 0x200 1 0x300 1) s' = .next t' ∧ t'.code = 0x00 ∧ memReadBytes s'.dmem 0x200 1 = memReadBytes t.dmem 0x200 1) := by
  refine ⟨rfl, ⟨_, rfl, rfl, rfl⟩, ⟨_, exec_succeeds (i := .scXor 0x100 1 0x200 1) rfl (by decide), rfl, ?_⟩⟩
  refine ⟨{ session with dmem := (effectOf (.scXor 0x100 1 0x200 1) session).dmem }, _, rfl, rfl, ?_,
    exec_succeeds (i := .scXor 0x200 1 0x300 1) rfl ?_, rfl, rfl⟩
  · exact wf_xorLoop _ _ _ _ (m := session.dmem) rfl _
  · decide
theorem test_witness_IllegalKeySizeStopsTheProcedure : State.reset.Usable ∧
    (List.replicate 10 (0 : Byte)).length ≤ State.reset.cfg.dmemBytes := ⟨reset_usable, by decide⟩
theorem test_witness_BlockProceduresRoundTrip : State.reset.Usable ∧ keyV12.length = 16 := ⟨reset_usable, rfl⟩
theorem test_witness_StreamProceduresRoundTrip : State.reset.Usable ∧ keyV12.length = 16 ∧
    ([] : List Byte).length = 0 ∧ (List.replicate 8 (0xF0 : Byte)).length = 8 := ⟨reset_usable, rfl, rfl, rfl⟩

end Sys2Proof.Tests
end

/-! The decoder refuses exactly the descriptors of spec/30_encoding.md R49, and the machine answers a refused one with
`IllegalCommand` alone; what one step does with a descriptor (R52). -/

namespace Sys2Proof.Machine

/-! ### Refusal by the decoder -/

theorem requireZero_refuses_iff {fs : List Word} {i : Instr} :
    (∃ e, requireZero fs i = .error e) ↔ ∃ f ∈ fs, f ≠ 0 := by
  unfold requireZero
  split
  · next hzero => simpa using hzero
  · next hnonzero => simpa using hnonzero

/-- What R48 and R49 ask of the fields beside `RSV`: a known opcode, and 0 in each field that its command does not use. -/
theorem decodeOp_refuses_iff (c : Cmd5) : (∃ e, decodeOp c = .error e) ↔
    (c.op ∉ [0x10, 0x11, 0x12, 0x13, 0x20, 0x21, 0x22] ∨
      (c.op = 0x10 ∧ (c.w3 ≠ 0 ∨ c.w4 ≠ 0)) ∨
      ((c.op = 0x11 ∨ c.op = 0x12) ∧ (c.w2 ≠ 0 ∨ c.w4 ≠ 0)) ∨
      ((c.op = 0x13 ∨ c.op = 0x22) ∧ (c.w1 ≠ 0 ∨ c.w2 ≠ 0 ∨ c.w3 ≠ 0 ∨ c.w4 ≠ 0))) := by
  unfold decodeOp
  split_ifs with bcKey bcEnc bcDec bcClr scInit scXor scClr
  case neg =>
    have unknown : c.op ∉ [0x10, 0x11, 0x12, 0x13, 0x20, 0x21, 0x22] := by simp_all
    exact ⟨fun _ => .inl unknown, fun _ => ⟨_, rfl⟩⟩
  all_goals simp [requireZero_refuses_iff, *]

theorem decode_of_rsv_zero {c : Cmd5} (h : c.rsv = 0) : decode c = decodeOp c := if_pos h

theorem decode_of_rsv_ne_zero {c : Cmd5} (h : c.rsv ≠ 0) : decode c = .error .reservedNotZero := if_neg h

theorem decode_refuses_iff (c : Cmd5) :
    (∃ e, decode c = .error e) ↔ (c.rsv ≠ 0 ∨ ∃ e, decodeOp c = .error e) := by
  by_cases h : c.rsv = 0
  · simp [decode_of_rsv_zero h, h]
  · exact ⟨fun _ => .inl h, fun _ => ⟨_, decode_of_rsv_ne_zero h⟩⟩

/-! ### The machine's answer to a descriptor -/

theorem runDescriptor_of_decode_ok {w : Cmd5} {i : Instr} (h : decode w = .ok i) (s : State) :
    runDescriptor w s = exec i s := by
  simp [runDescriptor, h]

theorem runDescriptor_of_decode_error {w : Cmd5} {e : Illegal} (h : decode w = .error e) (s : State) :
    runDescriptor w s = illegalCommand s := by
  simp [runDescriptor, h]

theorem illegalCommand_of_not_aborted {s : State} (ha : s.abort = false) :
    illegalCommand s = .next (s.raiseFail .illegalCommand) := by
  rw [illegalCommand, runCommand_cons ha]
  rfl

theorem step_command {s : State} {w : Cmd5} {rest : List HostMove} (h : s.inbox = .command w :: rest) :
    step s = respond (runDescriptor w { s with inbox := rest }) := by
  simp [step, h, serve]

/-! ### The obligations -/

/-- Settles O3: the iff by the decoder's two tests, `RSV` and then the fields that `OP` governs; the outcome by the answer
to an illegal descriptor, whose only check always fails. -/
theorem illegalDescriptorsFailAndChangeOnlyTheCode : Obligations.IllegalDescriptorsFailAndChangeOnlyTheCode := by
  refine ⟨fun c => ?_, fun c e s hd ha => ?_⟩
  · rw [decode_refuses_iff, decodeOp_refuses_iff, or_left_comm]
  · rw [runDescriptor_of_decode_error hd, illegalCommand_of_not_aborted ha]
    rfl

/-- Settles O6: running a descriptor always answers a next state, so the step's response is the `STATUS` word of that
state. -/
theorem stepRunsTheDecodedCommand : Obligations.StepRunsTheDecodedCommand := by
  intro s w rest hinbox
  obtain ⟨t, hrun⟩ := runDescriptor_answers w { s with inbox := rest }
  refine ⟨t, hrun, ?_, fun i hdec => ?_⟩
  · rw [step_command hinbox, hrun, respond]
  · rw [← runDescriptor_of_decode_ok hdec, hrun]

end Sys2Proof.Machine

/-! The key schedule of spec/41_block_key_schedule.md: `PACK` (R81), the recurrence of `EXPAND` (R82), the substitution
pass (R83), and `BC.KEY` from its descriptor on (R80). -/

namespace Sys2Proof.Machine

/-! ### PACK -/

theorem packWord_of_lt {key : List Byte} {j : Nat} (h : j < key.length / 4) : packWord key j = wordOf key j := if_pos h

theorem packWord_marker (key : List Byte) : packWord key (key.length / 4) = 1 := by simp [packWord]

theorem packWord_of_gt {key : List Byte} {j : Nat} (h : key.length / 4 < j) : packWord key j = 0 := by
  rw [packWord, if_neg (by omega), if_neg (by omega)]

@[simp] theorem pack_length (key : List Byte) : (pack key).length = 8 := by simp [pack]

theorem pack_getElem? (key : List Byte) {j : Nat} (h : j < 8) : (pack key)[j]? = some (packWord key j) := by
  simp [pack, h]

/-- Settles O34: each of the eight words by its place before, at or after the marker; a legal key has at most eight words. -/
theorem packPlacesKeyWordsAndMarker : Obligations.PackPlacesKeyWordsAndMarker := by
  intro key hlegal
  refine ⟨pack_length key, fun j hj => ?keyWord, fun hroom => ?marker, fun j hj h8 => ?zero⟩
  case keyWord =>
    rw [pack_getElem? key (by omega), packWord_of_lt hj, wordOf]
  case marker => rw [pack_getElem? key hroom, packWord_marker]
  case zero => rw [pack_getElem? key h8, packWord_of_gt hj]

/-! ### EXPAND -/

/-- The recurrence of R82 holds at index `i` of the words `w`, which stand in ascending order. -/
def KeyRecurrence (w : List Word) (i : Nat) : Prop :=
  w.getD i 0 = rotl32 (w.getD (i - 8) 0 ^^^ w.getD (i - 5) 0 ^^^ w.getD (i - 3) 0 ^^^ w.getD (i - 1) 0
    ^^^ phi ^^^ BitVec.ofNat 32 (i - 8)) 11

/-- One step of `EXPAND` on the words in ascending order; `expandSteps` holds them newest first. -/
def appendPrekey (w : List Word) : List Word := w ++ [nextPrekey w.reverse w.length]

theorem expandSteps_reverse (w : List Word) (n : Nat) :
    expandSteps w.reverse w.length n = (appendPrekey^[n] w).reverse := by
  induction n generalizing w with
  | zero => rfl
  | succ n ih => simpa [expandSteps, appendPrekey] using ih (appendPrekey w)

theorem expand_eq_iterate {w : List Word} (h : w.length = 8) : expand w = appendPrekey^[132] w := by
  rw [expand, ← h, expandSteps_reverse, List.reverse_reverse]

theorem length_iterate_appendPrekey (w : List Word) (n : Nat) : (appendPrekey^[n] w).length = w.length + n := by
  induction n with
  | zero => rfl
  | succ n ih => simp [Function.iterate_succ_apply', appendPrekey, ih, Nat.add_assoc]

theorem prefix_iterate_appendPrekey (w : List Word) (n : Nat) : w <+: appendPrekey^[n] w :=
  Function.Iterate.rec (w <+: ·) List.prefix_rfl (fun _ h => h.trans (List.prefix_append _ _)) n

theorem keyRecurrence_append {w : List Word} (v : List Word) {i : Nat} (h : i < w.length) :
    KeyRecurrence (w ++ v) i ↔ KeyRecurrence w i := by
  have old : ∀ j ≤ i, (w ++ v).getD j 0 = w.getD j 0 := fun j hj => List.getD_append _ _ _ _ (by omega)
  simp only [KeyRecurrence, old _ le_rfl, old _ (Nat.sub_le i _)]

theorem keyRecurrence_appendPrekey_new {w : List Word} (h : 8 ≤ w.length) : KeyRecurrence (appendPrekey w) w.length := by
  have old : ∀ k, 1 ≤ k → k ≤ 8 → (appendPrekey w).getD (w.length - k) 0 = w.reverse.getD (k - 1) 0 := by
    intro k hpos hk
    rw [appendPrekey, List.getD_append _ _ _ _ (by omega), List.getD_reverse _ (by omega)]
    congr 1
    omega
  have new : (appendPrekey w).getD w.length 0 = nextPrekey w.reverse w.length := by simp [appendPrekey]
  rw [KeyRecurrence, new, old 8, old 5, old 3, old 1, nextPrekey] <;> decide

/-- At least eight words, and the recurrence at every index from 8 on: what each step of `EXPAND` keeps. -/
def IsKeySequence (w : List Word) : Prop := 8 ≤ w.length ∧ ∀ i, 8 ≤ i → i < w.length → KeyRecurrence w i

theorem isKeySequence_appendPrekey (w : List Word) (h : IsKeySequence w) : IsKeySequence (appendPrekey w) := by
  obtain ⟨hlen, hrec⟩ := h
  have hlen' : (appendPrekey w).length = w.length + 1 := length_iterate_appendPrekey w 1
  refine ⟨by omega, fun i h8 hi => ?_⟩
  obtain hold | rfl : i < w.length ∨ i = w.length := by omega
  · exact (keyRecurrence_append _ hold).2 (hrec i h8 hold)
  · exact keyRecurrence_appendPrekey_new hlen

/-- Settles O35: `EXPAND` appends 132 words one at a time, each step keeps the recurrence at every index from 8 on, and
the eight words it began with stay in front. -/
theorem expandFollowsTheRecurrence : Obligations.ExpandFollowsTheRecurrence := by
  intro w hw
  have hlen : (expand w).length = 140 := by rw [expand_eq_iterate hw, length_iterate_appendPrekey, hw]
  have hprefix : w <+: expand w := expand_eq_iterate hw ▸ prefix_iterate_appendPrekey w 132
  have hstart : IsKeySequence w := ⟨hw.ge, by omega⟩
  obtain ⟨-, hrec⟩ : IsKeySequence (expand w) :=
    expand_eq_iterate hw ▸ Function.Iterate.rec IsKeySequence hstart isKeySequence_appendPrekey 132
  refine ⟨hlen, fun j hj => ?_, fun i h8 hi => hrec i h8 (by omega)⟩
  obtain ⟨new, hnew⟩ := hprefix
  rw [← hnew, List.getD_append _ _ _ _ (by omega)]

/-! ### The substitution pass -/

/-- R83 numbers the substitution functions downwards from 3; the model does so in the natural numbers. -/
theorem groupSbox_val (g : Nat) : ((groupSbox g).val : Int) = (3 - (g : Int)) % 8 := by
  have hval : (groupSbox g).val = (3 + 7 * g) % 8 := rfl
  omega

theorem flattenGroups_getElem (groups : Vector Quad 33) (g : Fin 33) {t : Nat} (h : t < 4) :
    (flattenGroups groups)[4 * g.val + t] = Quad.word groups[g] t := by
  have hdiv : (4 * g.val + t) / 4 = g.val := by omega
  have hmod : (4 * g.val + t) % 4 = t := by omega
  simp [flattenGroups, hdiv, hmod]

theorem subkey_flattenGroups (groups : Vector Quad 33) (g : Fin 33) : subkey (flattenGroups groups) g = groups[g] := by
  have word (t : Nat) (h : t < 4) := flattenGroups_getElem groups g h
  exact (Quad.mk.injEq ..).mpr ⟨word 0 (by decide), word 1 (by decide), word 2 (by decide), word 3 (by decide)⟩

theorem subkey_roundKeys (key : List Byte) (g : Fin 33) :
    subkey (roundKeys key) g = subst (groupSbox g.val) (rawGroup (expand (pack key)) g.val) := by
  rw [roundKeys, subkey_flattenGroups]
  simp [substGroups]

/-- Settles O36: the words `4g .. 4g+3` of the flattened set are group `g` again, which the pass made with
`S_((3 - g) mod 8)`. -/
theorem roundKeysAreSubstitutedGroups : Obligations.RoundKeysAreSubstitutedGroups := fun key g =>
  ⟨groupSbox g.val, groupSbox_val g.val, subkey_roundKeys key g⟩

/-! ### BC.KEY from its descriptor on -/

theorem runDescriptor_of_aborted {s : State} (ha : s.abort = true) (c : Cmd5) :
    runDescriptor c s = .next (s.raiseFail .aborted) := by
  unfold runDescriptor
  split
  · rw [exec_eq_runCommand, runCommand_aborted ha]
  · exact runCommand_aborted ha

theorem succeed_effectOf_bcKey (a alen : Nat) (s : State) : (effectOf (.bcKey a alen) s).succeed =
    { s with bce := { rk := roundKeys (memReadBytes s.dmem a alen), valid := true }, code := 0x00 } := by
  simp only [effectOf, State.succeed, Code.toByte]

theorem exec_bcKey_of_not_aborted {s : State} (ha : s.abort = false) (a alen : Nat) :
    exec (.bcKey a alen) s = .next (
      if s.cfg.dmemBytes < a + alen then s.raiseAbort .addrRange
      else if alen ≠ 16 ∧ alen ≠ 24 ∧ alen ≠ 32 then s.raiseFail .invalidKeySize
      else { s with bce := { rk := roundKeys (memReadBytes s.dmem a alen), valid := true }, code := 0x00 }) := by
  rw [exec_eq_runCommand, checksOf, runCommand_cons ha, runCommand_cons ha, runCommand_nil ha,
    succeed_effectOf_bcKey]
  simp only [rangeCheck_bad, legalBcKey_eq_false]
  split_ifs <;> rfl

theorem decodeOp_bcKey {c : Cmd5} (h : c.op = 0x10) :
    decodeOp c = requireZero [c.w3, c.w4] (.bcKey c.w1.toNat c.w2.toNat) := if_pos h

theorem decode_bcKey_of_fields {c : Cmd5} (h : c.op = 0x10) (hrsv : c.rsv = 0) (h3 : c.w3 = 0) (h4 : c.w4 = 0) :
    decode c = .ok (.bcKey c.w1.toNat c.w2.toNat) := by
  rw [decode_of_rsv_zero hrsv, decodeOp_bcKey h, requireZero_ok]
  simp [h3, h4]

theorem decode_bcKey_refuses_iff {c : Cmd5} (h : c.op = 0x10) :
    (∃ e, decode c = .error e) ↔ c.rsv ≠ 0 ∨ c.w3 ≠ 0 ∨ c.w4 ≠ 0 := by
  rw [decode_refuses_iff, decodeOp_bcKey h, requireZero_refuses_iff]
  simp

/-- Settles O16: the three ways a descriptor goes (the aborted condition, a refusal by the decoder, the command itself),
the last one with the checks of `BC.KEY` in their order. -/
theorem bcKeyDescriptorFollowsItsRule : Obligations.BcKeyDescriptorFollowsItsRule := by
  intro c s hop
  dsimp only
  by_cases ha : s.abort = true
  · rw [runDescriptor_of_aborted ha, if_pos ha]
    rfl
  rw [if_neg ha]
  replace ha : s.abort = false := by simpa using ha
  by_cases hillegal : c.rsv ≠ 0 ∨ c.w3 ≠ 0 ∨ c.w4 ≠ 0
  · obtain ⟨e, hdec⟩ := (decode_bcKey_refuses_iff hop).2 hillegal
    rw [runDescriptor_of_decode_error hdec, illegalCommand_of_not_aborted ha, if_pos hillegal]
    rfl
  · obtain ⟨hrsv, h3, h4⟩ : c.rsv = 0 ∧ c.w3 = 0 ∧ c.w4 = 0 := by simpa using hillegal
    rw [runDescriptor_of_decode_ok (decode_bcKey_of_fields hop hrsv h3 h4), exec_bcKey_of_not_aborted ha,
      if_neg hillegal]
    rfl

end Sys2Proof.Machine

/-! The block commands of spec/42_block_codec.md: `ENC_BLOCK` as a sequence of rounds (R90), and `BC.ENC` and `BC.DEC` from
their descriptors on (R92, R93). -/

namespace Sys2Proof.Machine

/-! ### The rounds of ENC_BLOCK -/

/-- The words before round 0 and after each of the 32 rounds of `ENC_BLOCK` (R90). -/
def encRounds (rk : Vector Word 132) (r : Quad) : List Quad := (List.finRange 32).scanl (encRound rk) r

theorem encRounds_length (rk : Vector Word 132) (r : Quad) : (encRounds rk r).length = 33 := by simp [encRounds]

theorem encRounds_zero (rk : Vector Word 132) (r : Quad) : (encRounds rk r)[0]? = some r := by simp [encRounds]

theorem encRounds_succ (rk : Vector Word 132) (r : Quad) (i : Fin 32) :
    (encRounds rk r)[i.val + 1]? = (encRounds rk r)[i.val]?.map (encRound rk · i) := by
  simp [encRounds, List.getElem?_succ_scanl, Option.map_eq_bind]

theorem encBlock_eq_encRounds_last (rk : Vector Word 132) (r : Quad) :
    ∃ last, (encRounds rk r)[32]? = some last ∧ encBlock rk r = last.xor (subkey rk 32) := by
  refine ⟨(List.finRange 32).foldl (encRound rk) r, ?_, rfl⟩
  rw [encRounds, List.getElem?_scanl, List.take_of_length_le] <;> simp

/-- Round `i` as R90 writes it. -/
theorem encRound_eq (rk : Vector Word 132) (p : Quad) (i : Fin 32) :
    encRound rk p i =
      let mixed := subst (roundSbox i) (p.xor (subkey rk i.castSucc))
      if i.val = 31 then mixed else diffuse mixed := by
  simp only [encRound, ite_not]

/-- Settles O38: the quadruples are those of the fold over the rounds, kept in a list. -/
theorem encBlockIsThirtyTwoRounds : Obligations.EncBlockIsThirtyTwoRounds := by
  intro rk r
  refine ⟨encRounds rk r, encRounds_length rk r, encRounds_zero rk r, fun i => ?_, encBlock_eq_encRounds_last rk r⟩
  have hi : i.val < (encRounds rk r).length := by rw [encRounds_length]; omega
  have hp : (encRounds rk r)[i.val]? = some (encRounds rk r)[i.val] := List.getElem?_eq_getElem hi
  refine ⟨_, encRound rk (encRounds rk r)[i.val] i, hp, ?_, encRound_eq rk _ i⟩
  rw [encRounds_succ, hp, Option.map_some]

/-! ### BC.ENC and BC.DEC from their descriptors on -/

/-- The three ways a descriptor goes: the aborted condition, a refusal by the decoder (here when `illegal` holds), the
command itself (R49, R164). -/
theorem runDescriptor_eq_of_decode {c : Cmd5} {i : Instr} {s t : State} {illegal : Prop} [Decidable illegal]
    (hrefused : illegal → ∃ e, decode c = .error e) (hok : ¬ illegal → decode c = .ok i)
    (hexec : s.abort = false → exec i s = .next t) :
    runDescriptor c s = .next (
      if s.abort = true then s.raiseFail .aborted else if illegal then s.raiseFail .illegalCommand else t) := by
  cases ha : s.abort with
  | true => rw [runDescriptor_of_aborted ha, if_pos rfl]
  | false =>
    rw [if_neg Bool.false_ne_true]
    split_ifs with hillegal
    · obtain ⟨e, hdec⟩ := hrefused hillegal
      rw [runDescriptor_of_decode_error hdec, illegalCommand_of_not_aborted ha]
    · rw [runDescriptor_of_decode_ok (hok hillegal), hexec ha]

/-- What `BC.ENC` (`f` is `ENC_BLOCK`) and `BC.DEC` (`f` is `DEC_BLOCK`) leave after their own checks, in the order of R92
and R93. -/
def blockResult (f : Vector Word 132 → Quad → Quad) (a b : Nat) (s : State) : State :=
  if s.bce.valid = false then s.raiseFail .notReady
  else if s.cfg.dmemBytes < a + 16 ∨ s.cfg.dmemBytes < b + 16 then s.raiseAbort .addrRange
  else (s.storeBlock b (f s.bce.rk (s.loadBlock a))).succeed

theorem runCommand_block {s : State} (ha : s.abort = false) (f : Vector Word 132 → Quad → Quad) (a b : Nat) :
    runCommand [bcNotReady s, rangeCheck s a 16, rangeCheck s b 16] (fun s => s.storeBlock b (f s.bce.rk (s.loadBlock a))) s
      = .next (blockResult f a b s) := by
  simp only [runCommand_cons ha, runCommand_nil ha, bcNotReady_bad, rangeCheck_bad, blockResult, ite_or]
  split_ifs <;> rfl

theorem decode_block_refuses_iff {c : Cmd5} (h : c.op = 0x11 ∨ c.op = 0x12) :
    (∃ e, decode c = .error e) ↔ c.rsv ≠ 0 ∨ c.w2 ≠ 0 ∨ c.w4 ≠ 0 := by
  rw [decode_refuses_iff, decodeOp_refuses_iff]
  obtain h | h := h <;> simp [h]

theorem decode_block_of_fields {c : Cmd5} (h : c.op = 0x11 ∨ c.op = 0x12)
    (hlegal : ¬ (c.rsv ≠ 0 ∨ c.w2 ≠ 0 ∨ c.w4 ≠ 0)) :
    decode c = .ok (if c.op = 0x11 then .bcEnc c.w1.toNat c.w3.toNat else .bcDec c.w1.toNat c.w3.toNat) := by
  obtain ⟨hrsv, h2, h4⟩ : c.rsv = 0 ∧ c.w2 = 0 ∧ c.w4 = 0 := by simpa using hlegal
  rw [decode_of_rsv_zero hrsv]
  obtain h | h := h <;> simp [decodeOp, h, requireZero_ok, h2, h4]

theorem exec_block_of_not_aborted {s : State} (ha : s.abort = false) (enc : Prop) [Decidable enc] (a b : Nat) :
    exec (if enc then .bcEnc a b else .bcDec a b) s = .next (blockResult (if enc then encBlock else decBlock) a b s) := by
  split_ifs
  · exact runCommand_block ha encBlock a b
  · exact runCommand_block ha decBlock a b

/-- Settles O17: the decoder's test and the command's own checks in their order, the same for both commands but for the
block function. -/
theorem blockDescriptorsFollowTheirRules : Obligations.BlockDescriptorsFollowTheirRules := by
  intro c s hop
  have hok (hlegal : ¬ (c.rsv ≠ 0 ∨ c.w2 ≠ 0 ∨ c.w4 ≠ 0)) := decode_block_of_fields hop hlegal
  rw [runDescriptor_eq_of_decode (decode_block_refuses_iff hop).2 hok (exec_block_of_not_aborted · _ _ _),
    blockResult, ite_apply, ite_apply]
  rfl

end Sys2Proof.Machine

/-! The stream state of spec/43_stream_state.md: the counter update (R112), the `g` function and `NEXTSTATE` (R113), and the
counter re-mix that ends key setup (R108). -/

namespace Sys2Proof.Machine

/-! ### The counter update, lane by lane -/

theorem toNat_decide (p : Prop) [Decidable p] : (decide p).toNat = if p then 1 else 0 := Bool.cond_decide p 1 0

theorem counterLane_add_fst (c a : Word) (b : Bool) :
    (counterLane .add c a b).1.toNat = (c.toNat + a.toNat + b.toNat) % 2 ^ 32 := BitVec.toNat_ofNat _ _

theorem counterLane_add_snd (c a : Word) (b : Bool) :
    (counterLane .add c a b).2.toNat = (c.toNat + a.toNat + b.toNat) / 2 ^ 32 := by
  have hb : b.toNat ≤ 1 := Bool.toNat_le b
  simp only [counterLane, toNat_decide]
  split_ifs <;> omega

theorem counterLane_sub_fst (c a : Word) (b : Bool) :
    ((counterLane .sub c a b).1.toNat : Int) = ((c.toNat : Int) - a.toNat - b.toNat) % 2 ^ 32 := by
  simp only [counterLane, BitVec.toNat_ofInt]
  omega

theorem counterLane_sub_snd (c a : Word) (b : Bool) :
    ((counterLane .sub c a b).2.toNat : Int) = if (c.toNat : Int) - a.toNat - b.toNat < 0 then 1 else 0 := by
  simp only [counterLane, toNat_decide]
  split_ifs <;> rfl

/-- One turn of the loop of R112: lane `j` is replaced, every other lane stays. -/
def counterStep (mode : CtrMode) (a : Vector Word 8) (st : Vector Word 8 × Bool) (j : Fin 8) : Vector Word 8 × Bool :=
  (st.1.set j (counterLane mode st.1[j] a[j] st.2).1, (counterLane mode st.1[j] a[j] st.2).2)

/-- The counters, and the bit that enters the next lane, when the loop of R112 has done its first `n` lanes. -/
def countersAfter (mode : CtrMode) (a ctr : Vector Word 8) (carry : Bool) (n : Nat) : Vector Word 8 × Bool :=
  (lanes.take n).foldl (counterStep mode a) (ctr, carry)

section
variable (mode : CtrMode) (a ctr : Vector Word 8) (carry : Bool)

theorem countersAfter_zero : countersAfter mode a ctr carry 0 = (ctr, carry) := rfl

theorem countersAfter_eight : countersAfter mode a ctr carry 8 = counterUpdate mode a ctr carry := rfl

theorem countersAfter_succ (j : Fin 8) :
    countersAfter mode a ctr carry (j.val + 1) = counterStep mode a (countersAfter mode a ctr carry j.val) j := by
  have hj : j.val < lanes.length := j.isLt
  have hlane : lanes[j.val] = j := by revert j; decide
  rw [countersAfter, List.take_succ_eq_append_getElem hj, List.foldl_append, hlane]
  rfl

/-- The turns from lane `m` to lane `n - 1` leave the other lanes alone. -/
theorem countersAfter_other_lane {m n : Nat} (hmn : m ≤ n) (hn : n ≤ 8) {i : Nat} (hi : i < 8) (h : i < m ∨ n ≤ i) :
    (countersAfter mode a ctr carry n).1[i] = (countersAfter mode a ctr carry m).1[i] := by
  induction n, hmn using Nat.le_induction with
  | base => rfl
  | succ n hmn ih =>
    have hne : n ≠ i := by omega
    rw [countersAfter_succ mode a ctr carry ⟨n, hn⟩, counterStep,
      ← ih (by omega) (by omega)]
    exact Vector.getElem_set_ne hn hi hne

/-- Lane `j` takes the old counter and the bit that lane `j - 1` left, and gives the new counter and the next bit. -/
theorem counterLane_countersAfter (j : Fin 8) :
    counterLane mode ctr[j] a[j] (countersAfter mode a ctr carry j.val).2 =
      ((counterUpdate mode a ctr carry).1[j], (countersAfter mode a ctr carry (j.val + 1)).2) := by
  have hold : (countersAfter mode a ctr carry j.val).1[j] = ctr[j] :=
    countersAfter_other_lane mode a ctr carry (Nat.zero_le _) j.isLt.le j.isLt (.inr le_rfl)
  have hnew : (counterUpdate mode a ctr carry).1[j] = (countersAfter mode a ctr carry (j.val + 1)).1[j] :=
    countersAfter_other_lane mode a ctr carry j.isLt le_rfl j.isLt (.inl (Nat.lt_succ_self _))
  rw [hnew, countersAfter_succ, counterStep, hold]
  simp

/-- R112 in one statement for both modes: the nine bits that enter and leave the lanes. -/
theorem counterUpdate_threads : ∃ bit : Fin 9 → Bool, bit 0 = carry ∧ bit 8 = (counterUpdate mode a ctr carry).2 ∧
    ∀ j : Fin 8, counterLane mode ctr[j] a[j] (bit j.castSucc) = ((counterUpdate mode a ctr carry).1[j], bit j.succ) :=
  ⟨fun k => (countersAfter mode a ctr carry k.val).2, rfl, rfl, counterLane_countersAfter mode a ctr carry⟩

end

/-- Settles O41: the bits are those the loop threads; each mode reads its arithmetic off one lane. -/
theorem counterUpdateThreadsTheCarry : Obligations.CounterUpdateThreadsTheCarry := by
  intro a ctr carry
  refine ⟨?add, ?sub⟩
  case add =>
    obtain ⟨bit, hfirst, hlast, hlane⟩ := counterUpdate_threads .add a ctr carry
    refine ⟨fun k => (bit k).toNat, by simp only [hfirst], by simp only [hlast], fun j => ?_⟩
    rw [← counterLane_add_fst, ← counterLane_add_snd, hlane]
    exact ⟨rfl, rfl⟩
  case sub =>
    obtain ⟨bit, hfirst, hlast, hlane⟩ := counterUpdate_threads .sub a ctr carry
    refine ⟨fun k => (bit k).toNat, by simp only [hfirst], by simp only [hlast], fun j => ?_⟩
    rw [← counterLane_sub_fst, ← counterLane_sub_snd, hlane]
    exact ⟨rfl, rfl⟩

/-! ### The g function and NEXTSTATE -/

/-- The 64-bit product of R113 loses nothing: a word squared is below `2^64`. -/
theorem toNat_square_setWidth (u : Word) : (u.setWidth 64 * u.setWidth 64).toNat = u.toNat * u.toNat := by
  have hsq : u.toNat * u.toNat < 2 ^ 64 := Nat.mul_lt_mul'' (c := 2 ^ 32) (d := 2 ^ 32) u.isLt u.isLt
  have hwide : (u.setWidth 64).toNat = u.toNat := BitVec.toNat_setWidth_of_le (by decide)
  rw [BitVec.toNat_mul, hwide, Nat.mod_eq_of_lt hsq]

theorem gValue_toNat (x c : Word) : (gValue x c).toNat =
    ((x + c).toNat * (x + c).toNat % 2 ^ 32) ^^^ ((x + c).toNat * (x + c).toNat / 2 ^ 32) := by
  have hhigh : (x + c).toNat * (x + c).toNat / 2 ^ 32 < 2 ^ 32 :=
    Nat.div_lt_of_lt_mul (Nat.mul_lt_mul'' (x + c).isLt (x + c).isLt)
  simp only [gValue, BitVec.toNat_xor, BitVec.extractLsb'_toNat, toNat_square_setWidth,
    Nat.shiftRight_eq_div_pow, Nat.pow_zero, Nat.div_one, Nat.mod_eq_of_lt hhigh]

/-- Settles O43: the arithmetic of one `g`, then the eight values that `NEXTSTATE` takes of the old `X` and the new `C`. -/
theorem gIsTheFoldedSquare : Obligations.GIsTheFoldedSquare := by
  refine ⟨fun x c => ?_, fun cfg e => ?_⟩
  · rw [gValue_toNat, BitVec.toNat_add]
  · refine ⟨Vector.ofFn fun j => gValue e.x[j] (nextState cfg e).c[j], fun j => ?_, rfl⟩
    exact Vector.getElem_ofFn j.isLt

/-! ### The re-mix of key setup -/

theorem nextState4_eq_advances (cfg : Config) (e : Sce) : nextState4 cfg e = advances cfg e 4 := rfl

theorem remix_c_getElem (e : Sce) (i : Fin 8) :
    (remix e).c[i] = e.c[i] ^^^ e.x[(i.val + 4) % 8]'(Nat.mod_lt _ (by decide)) := Vector.getElem_ofFn i.isLt

theorem remix_changes_only_c (e : Sce) : remix e = { e with c := (remix e).c } := rfl

/-- Settles O47: key setup is the re-mix of four `NEXTSTATE` after `KEYMIX`, and the re-mix writes the counters only. -/
theorem keySetupRemixesTheCounters : Obligations.KeySetupRemixesTheCounters := by
  intro cfg key e
  have hsetup : keySetup cfg key e = remix (advances cfg (keyMix cfg key e) 4) := by
    rw [keySetup, nextState4_eq_advances]
  refine ⟨?_, fun i => ?_, keySetup_ksbuf cfg key e, keySetup_ksPos cfg key e, keySetup_valid cfg key e⟩
  · rw [hsetup]
    exact remix_changes_only_c _
  · simp only [hsetup]
    exact remix_c_getElem _ i

end Sys2Proof.Machine

/-! The padding of spec/45_host_wrapper.md: `ZPAD` (R144) reaches the next multiple of 16, and `ZSTRIP` (R145) is the
library's `List.rdropWhile` on the zero byte, so it splits a string into a part that does not end in zero and a zero tail. -/

namespace Sys2Proof.Machine

/-! ### ZPAD -/

/-- How many zero bytes `ZPAD` appends to a string of `n` bytes. -/
def padCount (n : Nat) : Nat := (16 - n % 16) % 16

theorem zpad_eq_append (bs : List Byte) : zpad bs = bs ++ List.replicate (padCount bs.length) 0 := rfl

theorem padCount_le (n : Nat) : padCount n ≤ 15 := by
  unfold padCount
  omega

theorem add_padCount_mod (n : Nat) : (n + padCount n) % 16 = 0 := by
  unfold padCount
  omega

/-! ### ZSTRIP -/

theorem zstrip_eq_rdropWhile (bs : List Byte) : zstrip bs = bs.rdropWhile (· == 0) := rfl

/-- The tail that `ZSTRIP` removes: the longest one of zero bytes. -/
theorem zstrip_append_zeros (bs : List Byte) :
    bs = zstrip bs ++ List.replicate (bs.rtakeWhile (· == 0)).length 0 := by
  have htail : bs.rtakeWhile (· == 0) = List.replicate (bs.rtakeWhile (· == 0)).length 0 :=
    List.eq_replicate_of_mem fun v hv => beq_iff_eq.mp (List.mem_rtakeWhile_imp (p := (· == 0)) hv)
  rw [← htail, zstrip_eq_rdropWhile, List.rdropWhile_append_rtakeWhile]

theorem zstrip_getLast?_ne_zero (bs : List Byte) : (zstrip bs).getLast? ≠ some 0 := by
  intro hlast
  obtain ⟨hne, hzero⟩ := List.mem_getLast?_eq_getLast hlast
  exact List.rdropWhile_last_not _ bs hne (beq_iff_eq.mpr hzero.symm)

/-- Zero bytes at the end make no difference to `ZSTRIP`. -/
theorem zstrip_append_replicate_zero (bs : List Byte) (k : Nat) :
    zstrip (bs ++ List.replicate k 0) = zstrip bs := by
  induction k with
  | zero => rw [List.replicate_zero, List.append_nil]
  | succ k ih =>
    rw [List.replicate_succ', ← List.append_assoc, zstrip_eq_rdropWhile, List.rdropWhile_concat_pos _ _ _ rfl]
    exact ih

theorem zstrip_zpad (bs : List Byte) : zstrip (zpad bs) = zstrip bs := by
  rw [zpad_eq_append, zstrip_append_replicate_zero]

/-! ### The obligation -/

/-- Settles O56: the pad count's two bounds, then the two halves into which `ZSTRIP` splits a string. -/
theorem paddingAndStripping : Obligations.PaddingAndStripping :=
  ⟨fun bs => ⟨padCount bs.length, padCount_le _, zpad_eq_append bs, add_padCount_mod _⟩,
    fun bs => ⟨_, zstrip_append_zeros bs, zstrip_getLast?_ne_zero bs⟩, zstrip_zpad⟩

end Sys2Proof.Machine

/-! The exceptions of spec/60_exceptions.md: the aborted condition refuses every descriptor (R164), and every descriptor
reports its first failing check and then changes only `STATUS.CODE` and `ABORT` (R175). -/

namespace Sys2Proof.Machine

/-- Settles O7: `Aborted` is the first check of every command and of the answer to an illegal descriptor. -/
theorem abortedRefusesEveryDescriptor : Obligations.AbortedRefusesEveryDescriptor := by
  intro c s ha
  rw [runDescriptor_of_aborted ha]
  rfl

/-! ### The code that a list of checks reports -/

/-- The code of the first check that fails, `OK` when none does (R175). -/
def reportedCode (checks : List Check) : Code := ((firstFailing checks).map Check.code).getD .ok

theorem reportedCode_nil : reportedCode [] = .ok := rfl

theorem reportedCode_cons (k : Check) (checks : List Check) :
    reportedCode (k :: checks) = if k.bad = true then k.code else reportedCode checks := by
  simp only [reportedCode, firstFailing]
  split_ifs <;> rfl

theorem rangeCheck_code (s : State) (p n : Nat) : (rangeCheck s p n).code = .addrRange := rfl

theorem bcNotReady_code (s : State) : (bcNotReady s).code = .notReady := rfl

theorem scNotReady_code (s : State) : (scNotReady s).code = .notReady := rfl

/-- The checks of each command stand in the order of R175. -/
theorem reportedCode_checksOf {s : State} (ha : s.abort = false) (i : Instr) :
    reportedCode (checksOf i s) = outcomeCode i s := by
  rw [outcomeCode.eq_def, if_neg (by simp [ha])]
  cases i with
  | bcKey a alen =>
    simp only [checksOf, reportedCode_cons, reportedCode_nil, rangeCheck_bad, rangeCheck_code, legalBcKey_eq_false]
  | bcEnc a b | bcDec a b =>
    simp only [checksOf, reportedCode_cons, reportedCode_nil, bcNotReady_bad, bcNotReady_code, rangeCheck_bad,
      rangeCheck_code, ite_or]
  | scInit a alen b blen =>
    simp only [checksOf, reportedCode_cons, reportedCode_nil, rangeCheck_bad, rangeCheck_code, legalScKey_eq_false,
      legalScIv_eq_false, ite_or]
  | scXor a alen b blen =>
    simp only [checksOf, reportedCode_cons, reportedCode_nil, scNotReady_bad, scNotReady_code, rangeCheck_bad,
      rangeCheck_code, badOverlap_iff, decide_eq_true_eq, ite_or]
  | bcClr | scClr => rfl

/-! ### The state that a failing check leaves -/

theorem raiseFail_aborted (s : State) : s.raiseFail .aborted = s.turnedAway .aborted := by
  simp [State.raiseFail, State.turnedAway, Code.isAbort]

/-- Every check of a command has the class of its code: it latches `ABORT` exactly for a code of the abort class. -/
theorem turnAway_of_mem_checksOf {i : Instr} {s : State} :
    ∀ k ∈ checksOf i s, s.turnAway k = s.turnedAway k.code := by
  cases i with
  | bcKey a alen =>
    simp [checksOf, turnAway_rangeCheck, rangeCheck_code, turnAway_invalidKeySize]
  | bcEnc a b | bcDec a b =>
    simp [checksOf, turnAway_bcNotReady, bcNotReady_code, turnAway_rangeCheck, rangeCheck_code]
  | scInit a alen b blen =>
    simp [checksOf, turnAway_rangeCheck, rangeCheck_code, turnAway_invalidKeyLength, turnAway_invalidIVLength]
  | scXor a alen b blen =>
    simp [checksOf, turnAway_scNotReady, scNotReady_code, turnAway_rangeCheck, rangeCheck_code, turnAway_bufferTooSmall,
      turnAway_overlappingBuffers]
  | bcClr | scClr => simp [checksOf]

/-! ### What a command reports -/

/-- The outcome of a command that started in `s` and reports `k`: a next state with that code, and when the code is not
`OK` the state `s` turned away with it. -/
def Reports (s : State) (k : Code) (o : Host.Outcome State Fault Refusal) : Prop :=
  ∃ t, o = .next t ∧ t.code = k.toByte ∧ (k ≠ .ok → t = s.turnedAway k)

theorem reports_success (s t : State) : Reports s .ok (.next t.succeed) := ⟨_, rfl, rfl, fun h => absurd rfl h⟩

theorem reports_turnedAway (s : State) (k : Code) : Reports s k (.next (s.turnedAway k)) := ⟨_, rfl, rfl, fun _ => rfl⟩

/-- A command reports `Aborted` or else what its own checks report. -/
theorem runCommand_reports {checks : List Check} {s : State} (effect : State → State)
    (hclass : ∀ k ∈ checks, s.turnAway k = s.turnedAway k.code) :
    Reports s (if s.abort = true then .aborted else reportedCode checks) (runCommand checks effect s) := by
  cases ha : s.abort with
  | true =>
    rw [if_pos rfl, runCommand_aborted ha, raiseFail_aborted]
    exact reports_turnedAway s .aborted
  | false =>
    rw [if_neg Bool.false_ne_true]
    induction checks with
    | nil => exact runCommand_nil ha ▸ reports_success s (effect s)
    | cons k rest ih =>
      obtain ⟨hk, hrest⟩ := List.forall_mem_cons.1 hclass
      rw [reportedCode_cons, runCommand_cons ha]
      split_ifs
      · exact hk ▸ reports_turnedAway s k.code
      · exact ih hrest

theorem illegalCommand_reports (s : State) :
    Reports s (if s.abort = true then .aborted else .illegalCommand) (illegalCommand s) :=
  runCommand_reports id (by simp [turnAway_illegalCommand])

theorem exec_reports (i : Instr) (s : State) :
    Reports s (if s.abort = true then .aborted else reportedCode (checksOf i s)) (exec i s) :=
  exec_eq_runCommand i s ▸ runCommand_reports (effectOf i) turnAway_of_mem_checksOf

theorem descriptorCode_of_decode_error {w : Cmd5} {e : Illegal} (h : decode w = .error e) (s : State) :
    descriptorCode w s = if s.abort = true then .aborted else .illegalCommand := by
  simp only [descriptorCode, h]

theorem descriptorCode_of_decode_ok {w : Cmd5} {i : Instr} (h : decode w = .ok i) (s : State) :
    descriptorCode w s = if s.abort = true then .aborted else reportedCode (checksOf i s) := by
  simp only [descriptorCode, h]
  split_ifs with ha
  · rfl
  · exact (reportedCode_checksOf (by simpa using ha) i).symm

/-- Settles O19: a descriptor goes the decoder's two ways, and on both the machine makes the checks of R175 in their
order. -/
theorem commandsReportTheFirstFailingCheck : Obligations.CommandsReportTheFirstFailingCheck := by
  intro w s
  change Reports s (descriptorCode w s) (runDescriptor w s)
  cases hdec : decode w with
  | error e =>
    rw [descriptorCode_of_decode_error hdec, runDescriptor_of_decode_error hdec]
    exact illegalCommand_reports s
  | ok i =>
    rw [descriptorCode_of_decode_ok hdec, runDescriptor_of_decode_ok hdec]
    exact exec_reports i s

end Sys2Proof.Machine

/-! What `RESET` does to `STATUS` and to the parameters, raised by the host and by power-on
(spec/70_reset_and_hazards.md R185). -/

namespace Sys2Proof.Machine

theorem Sce.pending_of_not_valid {e : Sce} (h : e.valid = false) : e.pending = 0 := by simp [Sce.pending, h]

/-- Every field of `STATUS` is read off a register that `RESET` clears: `KS_PENDING` reads 0 without a session, whatever
value `KS_POS` took (R13). -/
theorem State.statusWord_of_cleared {s : State} (hcode : s.code = Code.toByte .ok) (habort : s.abort = false)
    (hbk : s.bce.valid = false) (hsc : s.sce.valid = false) : s.statusWord = 0 := by
  simp [State.statusWord, Code.toByte, hcode, habort, hbk, hsc, Sce.pending_of_not_valid hsc]

theorem serve_reset (s : State) : serve .reset s = .next { s.resetEvent with reply := .none } := rfl

theorem serve_powerOn (s : State) : serve .powerOn s = .next { s.powerOnEvent with reply := .none } := rfl

/-- Settles O26: the host's `RESET` and power-on both leave the flags, the code and the stream registers of `resetEvent`,
and only power-on replaces `DMEM`. -/
theorem resetClearsFlagsAndKeepsMemory : Obligations.ResetClearsFlagsAndKeepsMemory := by
  have hstatus (s : State) : s.resetEvent.statusWord = 0 := State.statusWord_of_cleared rfl rfl rfl rfl
  have hpos (s : State) : s.resetEvent.sce.ksPos ≤ 16 := freeSce_ksPos_le s.draws
  refine ⟨fun s => ⟨_, serve_reset s, ?_⟩, fun s => ⟨_, serve_powerOn s, ?_⟩, ?_⟩
  · exact ⟨rfl, rfl, rfl, rfl, hstatus s, hpos s, State.resetEvent_dmem s, State.resetEvent_cfg s⟩
  · exact ⟨rfl, rfl, rfl, rfl, hstatus s, hpos s, State.powerOnEvent_cfg s⟩
  · exact State.statusWord_of_cleared rfl rfl rfl rfl

end Sys2Proof.Machine

/-! The command format of spec/30_encoding.md: decoder and encoder are inverse to each other (R45 to R50), and the text form
of a command assembles back to it (R51). -/

namespace Sys2Proof.Machine

/-! ### Decoding an encoded command -/

theorem operandFits_iff {v : Nat} : operandFits v = true ↔ v < 2 ^ 32 := decide_eq_true_iff

theorem operandFits_toNat (w : Word) : operandFits w.toNat = true := operandFits_iff.2 w.isLt

theorem toNat_ofNat_of_fits {v : Nat} (h : operandFits v = true) : (BitVec.ofNat 32 v).toNat = v :=
  BitVec.toNat_ofNat v 32 ▸ Nat.mod_eq_of_lt (operandFits_iff.1 h)

theorem rsv_encode (i : Instr) : (encode i).rsv = 0 := by
  cases i <;> simp [encode, opcode, Cmd5.rsv]

theorem decode_encode {i : Instr} (h : i.wellFormed = true) : decode (encode i) = .ok i := by
  rw [decode_of_rsv_zero (rsv_encode i)]
  cases i with
  | bcKey a alen | bcEnc a b | bcDec a b =>
    simp only [Instr.wellFormed, Bool.and_eq_true] at h
    obtain ⟨h1, h2⟩ := h
    simp [decodeOp, encode, opcode, Cmd5.op, requireZero_ok, toNat_ofNat_of_fits h1, toNat_ofNat_of_fits h2,
      -BitVec.toNat_ofNat]
  | scInit a alen b blen | scXor a alen b blen =>
    simp only [Instr.wellFormed, Bool.and_eq_true] at h
    obtain ⟨⟨⟨h1, h2⟩, h3⟩, h4⟩ := h
    simp [decodeOp, encode, opcode, Cmd5.op, requireZero_ok, toNat_ofNat_of_fits h1, toNat_ofNat_of_fits h2,
      toNat_ofNat_of_fits h3, toNat_ofNat_of_fits h4, -BitVec.toNat_ofNat]
  | bcClr | scClr => rfl

/-- Settles O1: the 20 bytes give the five words back, and the words decode to the command. -/
theorem decodeOfEncodeGivesTheCommand : Obligations.DecodeOfEncodeGivesTheCommand := by
  intro i h
  rw [decodeBytes, encodeBytes, if_pos (toBytes_length _), ofBytes_toBytes, decode_encode h]

/-! ### Encoding a decoded descriptor -/

theorem decode_eq_ok_iff {c : Cmd5} {i : Instr} : decode c = .ok i ↔ c.rsv = 0 ∧ decodeOp c = .ok i := by
  by_cases h : c.rsv = 0
  · simp [decode_of_rsv_zero h, h]
  · simp only [decode_of_rsv_ne_zero h, h, false_and, reduceCtorEq]

/-- Everything the decoder accepts, opcode by opcode: its zero fields are 0 and the others are the operands (R48). -/
theorem decodeOp_ok_cases {c : Cmd5} {i : Instr} (h : decodeOp c = .ok i) :
    (c.op = 0x10 ∧ c.w3 = 0 ∧ c.w4 = 0 ∧ .bcKey c.w1.toNat c.w2.toNat = i) ∨
    (c.op = 0x11 ∧ c.w2 = 0 ∧ c.w4 = 0 ∧ .bcEnc c.w1.toNat c.w3.toNat = i) ∨
    (c.op = 0x12 ∧ c.w2 = 0 ∧ c.w4 = 0 ∧ .bcDec c.w1.toNat c.w3.toNat = i) ∨
    (c.op = 0x13 ∧ c.w1 = 0 ∧ c.w2 = 0 ∧ c.w3 = 0 ∧ c.w4 = 0 ∧ .bcClr = i) ∨
    (c.op = 0x20 ∧ .scInit c.w1.toNat c.w2.toNat c.w3.toNat c.w4.toNat = i) ∨
    (c.op = 0x21 ∧ .scXor c.w1.toNat c.w2.toNat c.w3.toNat c.w4.toNat = i) ∨
    (c.op = 0x22 ∧ c.w1 = 0 ∧ c.w2 = 0 ∧ c.w3 = 0 ∧ c.w4 = 0 ∧ .scClr = i) := by
  unfold decodeOp at h
  split_ifs at h
  all_goals simpa [requireZero_ok, and_assoc, ‹c.op = _›] using h

theorem w0_of_op {c : Cmd5} (hrsv : c.rsv = 0) {k : BitVec 8} (hop : c.op = k) : c.w0 = (0 : BitVec 24) ++ k := by
  rw [w0_of_fields, hrsv, hop]

/-- Settles O2: in the branch of the decoder that each opcode names, the tested fields are 0 and the others are the
operands, so the encoder writes the same five words. -/
theorem encodeOfDecodeGivesTheDescriptor : Obligations.EncodeOfDecodeGivesTheDescriptor := by
  intro c i hdec
  obtain ⟨hrsv, hop⟩ := decode_eq_ok_iff.1 hdec
  have hw0 {k : BitVec 8} (h : c.op = k) := w0_of_op hrsv h
  obtain ⟨w0, w1, w2, w3, w4⟩ := c
  obtain ⟨h, rfl, rfl, rfl⟩ | ⟨h, rfl, rfl, rfl⟩ | ⟨h, rfl, rfl, rfl⟩ | ⟨h, rfl, rfl, rfl, rfl, rfl⟩ | ⟨h, rfl⟩ |
    ⟨h, rfl⟩ | ⟨h, rfl, rfl, rfl, rfl, rfl⟩ := decodeOp_ok_cases hop
  all_goals
    obtain rfl := hw0 h
    simp [Instr.wellFormed, operandFits_toNat, encode, opcode]

/-- Settles O4: each row by evaluation of the decoder. -/
theorem sampleDescriptorsDecode : Obligations.SampleDescriptorsDecode :=
  ⟨rfl, rfl, rfl, rfl, rfl, rfl, rfl, rfl, rfl, rfl, rfl, rfl⟩

/-! ### Numbers in the text form -/

theorem hexValue_hexDigit (d : BitVec 4) : hexValue (hexDigit d) = some d := by
  revert d
  decide

/-- The characters that separate the parts of a line (R51). -/
def separators : List Char := [' ', ',', ';']

theorem hexDigit_not_separator (d : BitVec 4) : hexDigit d ∉ separators := by
  revert d
  decide

theorem digitsValue_cons_hexDigit (acc : Nat) (d : BitVec 4) (rest : List Char) :
    digitsValue 16 acc (hexDigit d :: rest) = digitsValue 16 (acc * 16 + d.toNat) rest := by
  simp only [digitsValue, hexValue_hexDigit, if_pos d.isLt]

/-- The low `k` hex digits of a number, most significant first. -/
def lowHexDigits (n : Nat) : Nat → List Char
  | 0 => []
  | k + 1 => hexDigit (BitVec.ofNat 4 (n >>> (4 * k))) :: lowHexDigits n k

theorem digitsValue_lowHexDigits (n k : Nat) : digitsValue 16 (n >>> (4 * k)) (lowHexDigits n k) = some n := by
  induction k with
  | zero => rfl
  | succ k ih =>
    have hdigit : (n >>> (4 * (k + 1))) * 16 + (BitVec.ofNat 4 (n >>> (4 * k))).toNat = n >>> (4 * k) := by
      rw [show 4 * (k + 1) = 4 * k + 4 by omega, Nat.shiftRight_add, BitVec.toNat_ofNat,
        Nat.shiftRight_eq_div_pow _ 4]
      exact Nat.div_add_mod' _ 16
    rw [lowHexDigits, digitsValue_cons_hexDigit, hdigit, ih]

theorem parseNumber_hexNumber {n : Nat} (h : operandFits n = true) : parseNumber (hexNumber n) = some n := by
  have hhigh : n >>> (4 * 8) = 0 := Nat.shiftRight_eq_zero _ _ (operandFits_iff.1 h)
  have hvalue := digitsValue_lowHexDigits n 8
  rwa [hhigh] at hvalue

theorem hexNumber_no_separator (n : Nat) : ∀ c ∈ hexNumber n, c ∉ separators := by
  have hprefix : '0' ∉ separators ∧ 'x' ∉ separators := by decide
  simp [hexNumber, hexDigit_not_separator, hprefix]

/-! ### Trimming and splitting -/

theorem trim_of_ends {cs : List Char} (hhead : cs.head? ≠ some ' ') (hlast : cs.getLast? ≠ some ' ') : trim cs = cs := by
  have hdrop {ds : List Char} (h : ds.head? ≠ some ' ') : (ds.dropWhile fun c => c == ' ') = ds :=
    List.dropWhile_eq_self_iff.2 fun hpos => by
      cases ds with
      | nil => simp at hpos
      | cons d ds => simpa using h
  rw [trim, hdrop hhead, hdrop (by rwa [List.head?_reverse]), List.reverse_reverse]

theorem trim_space (cs : List Char) : trim (' ' :: cs) = trim cs := by simp [trim]

theorem splitCommas_append {cs : List Char} (h : ',' ∉ cs) (part rest : List Char) :
    splitCommas part (cs ++ rest) = splitCommas (cs.reverse ++ part) rest := by
  induction cs generalizing part with
  | nil => rfl
  | cons c cs ih =>
    obtain ⟨hc, hcs⟩ : ',' ≠ c ∧ ',' ∉ cs := by simpa using h
    rw [List.cons_append, splitCommas, if_neg (Ne.symm hc), ih hcs]
    simp

theorem comma_not_mem_hexNumber (n : Nat) : ',' ∉ hexNumber n :=
  fun h => hexNumber_no_separator n _ h (by decide)

theorem getLast?_hexNumber_ne_space (n : Nat) : (hexNumber n).getLast? ≠ some ' ' :=
  fun h => hexNumber_no_separator n _ (List.mem_of_getLast? h) (by decide)

theorem trim_hexNumber (n : Nat) : trim (hexNumber n) = hexNumber n :=
  trim_of_ends (by simp [hexNumber]) (getLast?_hexNumber_ne_space n)

/-- Each part after the first begins with the space after its comma. -/
theorem mapM_parse_splitCommas {ops : List Nat} (hne : ops ≠ []) (hfits : ∀ n ∈ ops, operandFits n = true)
    {spaces : List Char} (hspaces : spaces = [] ∨ spaces = [' ']) :
    ((splitCommas spaces (joinOperands ops)).mapM fun p => parseNumber (trim p)) = some ops := by
  have hpart (n : Nat) : trim (spaces.reverse ++ hexNumber n) = hexNumber n := by
    obtain rfl | rfl := hspaces
    · exact trim_hexNumber n
    · exact (trim_space _).trans (trim_hexNumber n)
  induction ops generalizing spaces with
  | nil => exact absurd rfl hne
  | cons n ops ih =>
    obtain ⟨hn, hops⟩ := List.forall_mem_cons.1 hfits
    cases ops with
    | nil =>
      rw [joinOperands, ← List.append_nil (hexNumber n), splitCommas_append (comma_not_mem_hexNumber n)]
      simp [splitCommas, hpart, parseNumber_hexNumber hn]
    | cons m ops =>
      have hrest := ih (by simp) hops (spaces := [' ']) (.inr rfl)
        fun k => (trim_space _).trans (trim_hexNumber k)
      rw [joinOperands, List.append_assoc, splitCommas_append (comma_not_mem_hexNumber n)]
      · simp [splitCommas, hpart, parseNumber_hexNumber hn, hrest]
      · simp

theorem joinOperands_ends {ops : List Nat} (hne : ops ≠ []) :
    (joinOperands ops).head? = some '0' ∧ (joinOperands ops).getLast? ≠ some ' ' ∧ ';' ∉ joinOperands ops := by
  have hsemicolon (n : Nat) : ';' ∉ hexNumber n := fun h => hexNumber_no_separator n _ h (by decide)
  induction ops with
  | nil => exact absurd rfl hne
  | cons n ops ih =>
    cases ops with
    | nil => exact ⟨rfl, getLast?_hexNumber_ne_space n, hsemicolon n⟩
    | cons m ops =>
      obtain ⟨hhead, hlast, hsemi⟩ := ih (by simp)
      have hne' : joinOperands (m :: ops) ≠ [] := fun h => by simp [h] at hhead
      refine ⟨by simp [joinOperands, hexNumber], ?_, by simp [joinOperands, hsemicolon, hsemi]⟩
      rwa [joinOperands, List.getLast?_append_of_ne_nil _ hne']
      simp

theorem parseOperands_joinOperands {ops : List Nat} (hfits : ∀ n ∈ ops, operandFits n = true) :
    parseOperands (trim (joinOperands ops)) = some ops := by
  by_cases hne : ops = []
  · subst hne
    rfl
  obtain ⟨hhead, hlast, -⟩ := joinOperands_ends hne
  have hjoin : joinOperands ops ≠ [] := fun h => by simp [h] at hhead
  rw [trim_of_ends (by simp [hhead]) hlast, parseOperands, if_neg hjoin]
  exact mapM_parse_splitCommas hne hfits (.inl rfl)

/-! ### A line of a listing -/

theorem assemble_mnemonic_operands (i : Instr) : assemble (mnemonic i) (operands i) = some i := by cases i <;> rfl

theorem mnemonic_no_separator (i : Instr) : ∀ c ∈ mnemonic i, c ∉ separators := by
  cases i <;> simp [mnemonic, separators]

theorem operands_fit {i : Instr} (h : i.wellFormed = true) : ∀ n ∈ operands i, operandFits n = true := by
  cases i <;> simp_all [operands, Instr.wellFormed]

theorem parseLine_of_ends {line : List Char} (hcomment : ';' ∉ line) (hhead : line.head? ≠ some ' ')
    (hlast : line.getLast? ≠ some ' ') :
    parseLine line = (parseOperands (trim (line.dropWhile fun c => !(c == ' ')))).bind
      (assemble (line.takeWhile fun c => !(c == ' '))) := by
  have hbody : (line.takeWhile fun c => !(c == ';')) = line :=
    List.takeWhile_eq_self_iff.2 fun c hc => by
      simpa using fun heq : c = ';' => hcomment (heq ▸ hc)
  unfold parseLine
  simp only [hbody, trim_of_ends hhead hlast]
  split <;> simp [*]

/-- What `listing` writes after the mnemonic. -/
def operandText (ops : List Nat) : List Char := if ops = [] then [] else ' ' :: joinOperands ops

theorem listing_eq (i : Instr) : listing i = mnemonic i ++ operandText (operands i) := by
  cases i <;> simp [listing, operands, operandText]

theorem trim_operandText (ops : List Nat) : trim (operandText ops) = trim (joinOperands ops) := by
  cases ops with
  | nil => rfl
  | cons n ops => exact trim_space _

theorem operandText_ends (ops : List Nat) : ';' ∉ operandText ops ∧ (operandText ops).getLast? ≠ some ' ' := by
  by_cases hne : ops = []
  · simp [operandText, hne]
  · obtain ⟨hhead, hlast, hsemi⟩ := joinOperands_ends hne
    have hjoin : joinOperands ops ≠ [] := fun h => by simp [h] at hhead
    refine ⟨by simp [operandText, hne, hsemi], ?_⟩
    rw [operandText, if_neg hne, ← List.singleton_append, List.getLast?_append_of_ne_nil _ hjoin]
    exact hlast

/-- The first space of a line ends the mnemonic. -/
theorem span_mnemonic (i : Instr) (ops : List Nat) :
    ((mnemonic i ++ operandText ops).takeWhile fun c => !(c == ' ')) = mnemonic i ∧
    ((mnemonic i ++ operandText ops).dropWhile fun c => !(c == ' ')) = operandText ops := by
  have hword : ∀ c ∈ mnemonic i, (!(c == ' ')) = true := fun c hc => by
    simpa using fun heq : c = ' ' => mnemonic_no_separator i c hc (by simp [heq, separators])
  rw [List.takeWhile_append_of_pos hword, List.dropWhile_append_of_pos hword]
  by_cases hne : ops = [] <;> simp [operandText, hne]

theorem mnemonic_ne_nil (i : Instr) : mnemonic i ≠ [] := by cases i <;> simp [mnemonic]

theorem listing_ends (i : Instr) :
    ';' ∉ listing i ∧ (listing i).head? ≠ some ' ' ∧ (listing i).getLast? ≠ some ' ' := by
  obtain ⟨hsemi, hlast⟩ := operandText_ends (operands i)
  have hword := mnemonic_no_separator i
  rw [listing_eq]
  refine ⟨?_, ?_, ?_⟩
  · rw [List.mem_append, not_or]
    exact ⟨fun h => hword _ h (by decide), hsemi⟩
  · rw [List.head?_append_of_ne_nil _ (mnemonic_ne_nil i)]
    exact fun h => hword _ (List.mem_of_head? h) (by decide)
  · rw [List.getLast?_append]
    cases h : (operandText (operands i)).getLast? with
    | none => exact fun h => hword _ (List.mem_of_getLast? h) (by decide)
    | some c => simpa [h] using hlast

/-- Settles O5: the line has no comment and no spaces around it, its first space ends the mnemonic, and each operand parses
back. -/
theorem listingAssemblesBack : Obligations.ListingAssemblesBack := by
  intro i h
  obtain ⟨hcomment, hhead, hlast⟩ := listing_ends i
  rw [parseLine_of_ends hcomment hhead hlast, listing_eq]
  obtain ⟨htake, hdrop⟩ := span_mnemonic i (operands i)
  rw [htake, hdrop, trim_operandText, parseOperands_joinOperands (operands_fit h), Option.bind_some,
    assemble_mnemonic_operands]

end Sys2Proof.Machine

/-! The two ways a command ends: its effect, when its checks admit it, or the state turned away with a code
(spec/60_exceptions.md R160 to R164); and the invariant that every step keeps (spec/10_state.md R18). -/

namespace Sys2Proof.Machine

/-! ### When the checks of a command admit it -/

/-- None of the command's own checks fails. -/
def Admits (i : Instr) (s : State) : Prop := ∀ k ∈ checksOf i s, k.bad = false

theorem rangeCheck_passes (s : State) (p n : Nat) : (rangeCheck s p n).bad = false ↔ p + n ≤ s.cfg.dmemBytes := by
  simp [rangeCheck, inRange]

theorem bcNotReady_passes (s : State) : (bcNotReady s).bad = false ↔ s.bce.valid = true := by simp [bcNotReady]

theorem scNotReady_passes (s : State) : (scNotReady s).bad = false ↔ s.sce.valid = true := by simp [scNotReady]

theorem badOverlap_eq_false_iff (a alen b blen : Nat) :
    badOverlap a alen b blen = false ↔ alen = 0 ∨ a = b ∨ b + blen ≤ a ∨ a + alen ≤ b := by
  rw [← Bool.not_eq_true, badOverlap_iff]
  omega

section
variable {s : State}

theorem admits_bcKey {a alen : Nat} : Admits (.bcKey a alen) s ↔
    a + alen ≤ s.cfg.dmemBytes ∧ (alen = 16 ∨ alen = 24 ∨ alen = 32) := by
  simp [Admits, checksOf, rangeCheck_passes, legalBcKey]
  tauto

theorem admits_bcEnc {a b : Nat} : Admits (.bcEnc a b) s ↔
    s.bce.valid = true ∧ a + 16 ≤ s.cfg.dmemBytes ∧ b + 16 ≤ s.cfg.dmemBytes := by
  simp [Admits, checksOf, rangeCheck_passes, bcNotReady_passes]

theorem admits_bcDec {a b : Nat} : Admits (.bcDec a b) s ↔
    s.bce.valid = true ∧ a + 16 ≤ s.cfg.dmemBytes ∧ b + 16 ≤ s.cfg.dmemBytes := admits_bcEnc

theorem admits_bcClr : Admits .bcClr s := List.forall_mem_nil _

theorem admits_scInit {a alen b blen : Nat} : Admits (.scInit a alen b blen) s ↔
    a + alen ≤ s.cfg.dmemBytes ∧ b + blen ≤ s.cfg.dmemBytes ∧ alen = 16 ∧ (blen = 0 ∨ blen = 8) := by
  simp [Admits, checksOf, rangeCheck_passes, legalScKey, legalScIv]
  tauto

theorem admits_scXor {a alen b blen : Nat} : Admits (.scXor a alen b blen) s ↔
    s.sce.valid = true ∧ a + alen ≤ s.cfg.dmemBytes ∧ b + blen ≤ s.cfg.dmemBytes ∧ alen ≤ blen ∧
      (alen = 0 ∨ a = b ∨ b + blen ≤ a ∨ a + alen ≤ b) := by
  simp [Admits, checksOf, rangeCheck_passes, scNotReady_passes, badOverlap_eq_false_iff]

theorem admits_scClr : Admits .scClr s := List.forall_mem_nil _

end

/-! ### The codes with which a command is turned away -/

/-- The codes other than `OK` that a command can report: `Aborted` exactly in the aborted condition, and never
`HexDecodeError`, which the CORE does not produce (R163, R164). -/
def Code.canRefuse (aborted : Bool) : Code → Bool
  | .ok => false
  | .hexDecodeError => false
  | .aborted => aborted
  | _ => !aborted

/-- The state that a command leaves when it is turned away from `s`. -/
def TurnedAwayFrom (s t : State) : Prop := ∃ k : Code, k.canRefuse s.abort = true ∧ t = s.turnedAway k

theorem canRefuse_of_mem_checksOf {i : Instr} {s : State} : ∀ k ∈ checksOf i s, k.code.canRefuse false = true := by
  cases i <;> simp [checksOf, rangeCheck_code, bcNotReady_code, scNotReady_code, Code.canRefuse]

theorem runCommand_outcome {checks : List Check} {effect : State → State} {s t : State}
    (hclass : ∀ k ∈ checks, s.turnAway k = s.turnedAway k.code) (hcode : ∀ k ∈ checks, k.code.canRefuse false = true)
    (h : runCommand checks effect s = .next t) :
    (s.abort = false ∧ (∀ k ∈ checks, k.bad = false) ∧ t = (effect s).succeed) ∨ TurnedAwayFrom s t := by
  cases ha : s.abort with
  | true =>
    rw [runCommand_aborted ha, raiseFail_aborted] at h
    cases h
    exact .inr ⟨.aborted, by rw [ha]; rfl, rfl⟩
  | false =>
    obtain ⟨-, hpass, rfl⟩ | ⟨k, hk, hbad, rfl⟩ := runCommand_cases h
    · exact .inl ⟨rfl, hpass, rfl⟩
    · obtain rfl | hk := List.mem_cons.1 hk
      · exact absurd hbad (by simp [ha])
      · exact .inr ⟨k.code, ha ▸ hcode k hk, hclass k hk⟩

theorem exec_outcome {i : Instr} {s t : State} (h : exec i s = .next t) :
    (s.abort = false ∧ Admits i s ∧ t = (effectOf i s).succeed) ∨ TurnedAwayFrom s t :=
  runCommand_outcome turnAway_of_mem_checksOf canRefuse_of_mem_checksOf (exec_eq_runCommand i s ▸ h)

theorem illegalCommand_outcome {s t : State} (h : illegalCommand s = .next t) : TurnedAwayFrom s t := by
  obtain ⟨-, hpass, -⟩ | haway := runCommand_outcome (by simp [turnAway_illegalCommand]) (by simp [Code.canRefuse]) h
  · simp at hpass
  · exact haway

/-- Everything a descriptor can do (R160). -/
theorem runDescriptor_outcome {w : Cmd5} {s t : State} (h : runDescriptor w s = .next t) :
    (∃ i, decode w = .ok i ∧ s.abort = false ∧ Admits i s ∧ t = (effectOf i s).succeed) ∨ TurnedAwayFrom s t := by
  cases hdec : decode w with
  | error e => exact .inr (illegalCommand_outcome (runDescriptor_of_decode_error hdec s ▸ h))
  | ok i =>
    obtain ⟨ha, hpass, ht⟩ | haway := exec_outcome (runDescriptor_of_decode_ok hdec s ▸ h)
    · exact .inl ⟨i, rfl, ha, hpass, ht⟩
    · exact .inr haway

theorem turnedAwayFrom_code_ne_ok {s t : State} (h : TurnedAwayFrom s t) : t.code ≠ 0x00 := by
  obtain ⟨k, hk, rfl⟩ := h
  cases k with
  | ok => exact absurd hk Bool.false_ne_true
  | _ => exact of_decide_eq_true rfl

theorem exec_of_code_ok {i : Instr} {s t : State} (h : exec i s = .next t) (hcode : t.code = 0x00) :
    s.abort = false ∧ Admits i s ∧ t = (effectOf i s).succeed :=
  (exec_outcome h).resolve_right fun haway => turnedAwayFrom_code_ne_ok haway hcode

/-- Settles O20: a descriptor that does not end with `OK` was turned away, which writes the code and, for a code of the
abort class, the latch. -/
theorem failedCommandsChangeNothingElse : Obligations.FailedCommandsChangeNothingElse := by
  intro c s t h hcode
  obtain ⟨i, -, -, -, rfl⟩ | ⟨k, -, rfl⟩ := runDescriptor_outcome h
  · exact absurd rfl hcode
  · refine ⟨by simp only [State.turnedAway], fun hlatch => ?_⟩
    have hclass : k.isAbort = true := by
      by_contra hno
      exact hlatch (by simp [State.turnedAway, hno])
    refine ⟨by simp [State.turnedAway, hclass], ?_⟩
    cases k <;> simp_all [Code.isAbort, State.turnedAway, Code.toByte]

/-! ### Host moves -/

theorem step_idle {s : State} (h : s.inbox = []) : step s = .next s := by simp only [step, h]

theorem step_move {s : State} {move : HostMove} {rest : List HostMove} (h : s.inbox = move :: rest) :
    step s = serve move { s with inbox := rest } := by
  simp only [step, h]

theorem serve_command_eq {w : Cmd5} {s t : State} (h : runDescriptor w s = .next t) :
    serve (.command w) s = .next { t with reply := .status t.statusWord } := by
  rw [serve, h, respond]

theorem serve_readMem {s : State} {a n : Nat} (h : a + n ≤ s.cfg.dmemBytes) :
    serve (.readMem a n) s = .next { s with reply := .data (memReadBytes s.dmem a n) } :=
  if_pos (decide_eq_true h)

theorem serve_writeMem {s : State} {a : Nat} {bs : List Byte} (h : a + bs.length ≤ s.cfg.dmemBytes) :
    serve (.writeMem a bs) s = .next { s with dmem := memWriteBytes s.dmem a bs, reply := .none } :=
  if_pos (decide_eq_true h)

/-- A host read that is served was inside `DMEM`. -/
theorem serve_readMem_next {s t : State} {a n : Nat} (h : serve (.readMem a n) s = .next t) :
    a + n ≤ s.cfg.dmemBytes ∧ t = { s with reply := .data (memReadBytes s.dmem a n) } := by
  simp only [serve] at h
  split_ifs at h with hin
  cases h
  exact ⟨of_decide_eq_true hin, rfl⟩

/-- A host write that is served was inside `DMEM`. -/
theorem serve_writeMem_next {s t : State} {a : Nat} {bs : List Byte} (h : serve (.writeMem a bs) s = .next t) :
    a + bs.length ≤ s.cfg.dmemBytes ∧ t = { s with dmem := memWriteBytes s.dmem a bs, reply := .none } := by
  simp only [serve] at h
  split_ifs at h with hin
  cases h
  exact ⟨of_decide_eq_true hin, rfl⟩

/-- Settles O25: a command only reports `Aborted`, and the other moves that are no reset touch no engine. -/
theorem onlyResetLeavesTheAbortedCondition : Obligations.OnlyResetLeavesTheAbortedCondition := by
  intro s t move ha h hmove
  cases move with
  | command w =>
    rw [serve, runDescriptor_of_aborted ha] at h
    cases h
    exact ⟨ha, rfl, rfl, fun _ => rfl⟩
  | readStatus =>
    cases h
    exact ⟨ha, rfl, rfl, fun _ => rfl⟩
  | readMem a n =>
    obtain ⟨-, rfl⟩ := serve_readMem_next h
    exact ⟨ha, rfl, rfl, fun _ => rfl⟩
  | writeMem a bs =>
    obtain ⟨-, rfl⟩ := serve_writeMem_next h
    exact ⟨ha, rfl, rfl, fun hno => absurd rfl (hno a bs)⟩
  | reset | powerOn => exact absurd hmove (by decide)

/-! ### The invariant -/

/-- Settles O27: each clause by evaluation. -/
theorem invariantHoldsAtReset : Obligations.InvariantHoldsAtReset :=
  ⟨by decide, by decide, by decide, by decide, by decide, by decide⟩

theorem State.Inv.withInbox {s : State} (h : s.Inv) (moves : List HostMove) : ({ s with inbox := moves } : State).Inv :=
  ⟨h.config, h.ksPos, h.memCanonical, h.memInside, h.codeLegal, h.abortCode⟩

theorem State.Inv.withReply {s : State} (h : s.Inv) (r : Reply) : ({ s with reply := r } : State).Inv :=
  ⟨h.config, h.ksPos, h.memCanonical, h.memInside, h.codeLegal, h.abortCode⟩

/-- A code that a command reports is legal, and it is of the aborted codes exactly when the latch is set after it. -/
theorem Inv_of_turnedAwayFrom {s t : State} (hs : s.Inv) (h : TurnedAwayFrom s t) : t.Inv := by
  obtain ⟨k, hk, rfl⟩ := h
  have hcode : k.toByte ∈ coreCodes ∧ ((s.abort || k.isAbort) = true ↔ k.toByte ∈ abortedCodes) := by
    revert hk
    generalize s.abort = latch
    cases k <;> revert latch <;> decide
  exact ⟨hs.config, hs.ksPos, hs.memCanonical, hs.memInside, hcode.1, hcode.2⟩

theorem okCode_mem_coreCodes : Code.toByte .ok ∈ coreCodes := by decide

theorem okCode_not_mem_abortedCodes : Code.toByte .ok ∉ abortedCodes := by decide

/-- A successful end keeps the invariant when the parameters stay and the effect keeps `KS_POS` and memory in order. -/
theorem Inv_succeed {s t : State} (hs : s.Inv) (ha : t.abort = false) (hcfg : t.cfg = s.cfg) (hpos : t.sce.ksPos ≤ 16)
    (hwf : Memory.wf t.dmem = true) (hin : Memory.inside s.cfg t.dmem = true) : t.succeed.Inv where
  config := hcfg ▸ hs.config
  ksPos := hpos
  memCanonical := hwf
  memInside := hcfg ▸ hin
  codeLegal := okCode_mem_coreCodes
  abortCode := iff_of_false (by simp [ha]) okCode_not_mem_abortedCodes

@[simp] theorem effectOf_cfg (i : Instr) (s : State) : (effectOf i s).cfg = s.cfg := by cases i <;> simp [effectOf]

@[simp] theorem effectOf_abort (i : Instr) (s : State) : (effectOf i s).abort = s.abort := by cases i <;> simp [effectOf]

theorem effectOf_ksPos_le (i : Instr) {s : State} (h : s.sce.ksPos ≤ 16) : (effectOf i s).sce.ksPos ≤ 16 := by
  cases i with
  | scXor a alen b blen => simpa [effectOf, xorLoop_fst] using streamAfter_ksPos_le h alen
  | scInit a alen b blen => simp [effectOf]
  | scClr => simpa [effectOf] using freeSce_ksPos_le s.draws
  | _ => simpa [effectOf] using h

theorem wf_effectOf (i : Instr) {s : State} (h : Memory.wf s.dmem = true) : Memory.wf (effectOf i s).dmem = true := by
  cases i with
  | bcEnc a b | bcDec a b => simpa [effectOf] using wf_memWriteBytes _ h b
  | scXor a alen b blen => simpa [effectOf] using wf_xorLoop s.cfg a b s.sce h alen
  | _ => simpa [effectOf] using h

/-- The checks keep every store of an admitted command inside `DMEM`. -/
theorem inside_effectOf {i : Instr} {s : State} (hadm : Admits i s) (h : Memory.inside s.cfg s.dmem = true) :
    Memory.inside s.cfg (effectOf i s).dmem = true := by
  have store {b : Nat} (q : Quad) (hb : b + 16 ≤ s.cfg.dmemBytes) :
      Memory.inside s.cfg (s.storeBlock b q).dmem = true := by
    rw [State.storeBlock_dmem]
    exact inside_memWriteBytes _ h (by rwa [quadBytes_length])
  cases i with
  | bcEnc a b =>
    obtain ⟨-, -, hb⟩ := admits_bcEnc.1 hadm
    exact store _ hb
  | bcDec a b =>
    obtain ⟨-, -, hb⟩ := admits_bcDec.1 hadm
    exact store _ hb
  | scXor a alen b blen =>
    obtain ⟨-, -, hb, hcap, -⟩ := admits_scXor.1 hadm
    simpa [effectOf] using inside_xorLoop s.cfg a b s.sce h alen (by omega)
  | _ => simpa [effectOf] using h

theorem Inv_effectOf_succeed {i : Instr} {s : State} (hs : s.Inv) (ha : s.abort = false) (hadm : Admits i s) :
    (effectOf i s).succeed.Inv :=
  Inv_succeed hs (effectOf_abort i s ▸ ha) (effectOf_cfg i s) (effectOf_ksPos_le i hs.ksPos) (wf_effectOf i hs.memCanonical)
    (inside_effectOf hadm hs.memInside)

theorem runDescriptor_keeps_Inv {w : Cmd5} {s t : State} (hs : s.Inv) (h : runDescriptor w s = .next t) : t.Inv := by
  obtain ⟨i, -, ha, hadm, rfl⟩ | haway := runDescriptor_outcome h
  · exact Inv_effectOf_succeed hs ha hadm
  · exact Inv_of_turnedAwayFrom hs haway

theorem Inv_resetEvent {s : State} (hs : s.Inv) : s.resetEvent.Inv :=
  ⟨hs.config, freeSce_ksPos_le _, hs.memCanonical, hs.memInside, okCode_mem_coreCodes,
    iff_of_false Bool.false_ne_true okCode_not_mem_abortedCodes⟩

theorem Inv_powerOnEvent {s : State} (hs : s.Inv) : s.powerOnEvent.Inv :=
  ⟨hs.config, freeSce_ksPos_le _, wf_memOfCells _ _, inside_memOfCells _ _, okCode_mem_coreCodes,
    iff_of_false Bool.false_ne_true okCode_not_mem_abortedCodes⟩

theorem serve_keeps_Inv {move : HostMove} {s t : State} (hs : s.Inv) (h : serve move s = .next t) : t.Inv := by
  cases move with
  | command w =>
    obtain ⟨u, hu⟩ := runDescriptor_answers w s
    rw [serve_command_eq hu] at h
    cases h
    exact (runDescriptor_keeps_Inv hs hu).withReply _
  | readStatus =>
    cases h
    exact hs.withReply _
  | readMem a n =>
    obtain ⟨-, rfl⟩ := serve_readMem_next h
    exact hs.withReply _
  | writeMem a bs =>
    obtain ⟨hin, rfl⟩ := serve_writeMem_next h
    exact ⟨hs.config, hs.ksPos, wf_memWriteBytes _ hs.memCanonical _, inside_memWriteBytes _ hs.memInside hin,
      hs.codeLegal, hs.abortCode⟩
  | reset =>
    cases h
    exact (Inv_resetEvent hs).withReply _
  | powerOn =>
    cases h
    exact (Inv_powerOnEvent hs).withReply _

/-- Settles O28: the idle step changes nothing, and serving a move keeps the invariant. -/
theorem everyStepKeepsTheInvariant : Obligations.EveryStepKeepsTheInvariant := by
  intro s t hs h
  cases hinbox : s.inbox with
  | nil =>
    rw [step_idle hinbox] at h
    cases h
    exact hs
  | cons move rest =>
    rw [step_move hinbox] at h
    exact serve_keeps_Inv (hs.withInbox rest) h

end Sys2Proof.Machine

/-! Memory as plain storage (spec/20_memory.md R30), the host's reads and writes (R33), and the `STATUS` word
(spec/10_state.md R13). -/

namespace Sys2Proof.Machine

/-! ### Memory -/

theorem memRead_cons_self (a : Nat) (v : Byte) (m : List Host.Cell) : memRead ((a, v) :: m) a = v := if_pos rfl

theorem memRead_cons_other {a c : Nat} (h : c ≠ a) (v : Byte) (m : List Host.Cell) :
    memRead ((a, v) :: m) c = memRead m c := if_neg h

theorem wfFrom_cons_iff {low a : Nat} {v : Byte} {m : List Host.Cell} :
    Memory.wfFrom low ((a, v) :: m) = true ↔ low ≤ a ∧ v ≠ memFill ∧ Memory.wfFrom (a + 1) m = true := by
  simp [Memory.wfFrom, and_assoc]

theorem eq_nil_of_reads_fill {low : Nat} {m : List Host.Cell} (hm : Memory.wfFrom low m = true)
    (h : ∀ a, memRead m a = memFill) : m = [] := by
  cases m with
  | nil => rfl
  | cons cell rest =>
    obtain ⟨a, v⟩ := cell
    obtain ⟨-, hv, -⟩ := wfFrom_cons_iff.1 hm
    exact absurd (memRead_cons_self a v rest ▸ h a) hv

/-- The first listed address of a canonical memory is the least that does not read as `memFill`. -/
theorem first_address_le {low low' a b : Nat} {v w : Byte} {m n : List Host.Cell}
    (hm : Memory.wfFrom low ((a, v) :: m) = true) (hn : Memory.wfFrom low' ((b, w) :: n) = true)
    (h : ∀ c, memRead ((a, v) :: m) c = memRead ((b, w) :: n) c) : b ≤ a := by
  obtain ⟨-, hv, -⟩ := wfFrom_cons_iff.1 hm
  obtain ⟨-, hw, hrest⟩ := wfFrom_cons_iff.1 hn
  by_contra hlt
  have hfill := memRead_below (low := b) (a := a) (wfFrom_cons_iff.2 ⟨le_rfl, hw, hrest⟩) (by omega)
  exact hv (by rw [← memRead_cons_self a v m, h a, hfill])

theorem eq_of_reads_alike {low low' : Nat} {m n : List Host.Cell} (hm : Memory.wfFrom low m = true)
    (hn : Memory.wfFrom low' n = true) (h : ∀ c, memRead m c = memRead n c) : m = n := by
  induction m generalizing low low' n with
  | nil => exact (eq_nil_of_reads_fill hn fun a => (h a).symm).symm
  | cons cell m ih =>
    obtain ⟨a, v⟩ := cell
    cases n with
    | nil => exact eq_nil_of_reads_fill hm h
    | cons cell' n =>
      obtain ⟨b, w⟩ := cell'
      obtain rfl : a = b :=
        le_antisymm (first_address_le hn hm fun c => (h c).symm) (first_address_le hm hn h)
      obtain rfl : v = w := by simpa [memRead_cons_self] using h a
      obtain ⟨-, -, hm'⟩ := wfFrom_cons_iff.1 hm
      obtain ⟨-, -, hn'⟩ := wfFrom_cons_iff.1 hn
      have hrest : m = n := ih hm' hn' fun c => by
        obtain rfl | hc := eq_or_ne c a
        · rw [memRead_below hm' (Nat.lt_succ_self _), memRead_below hn' (Nat.lt_succ_self _)]
        · simpa [memRead_cons_other hc] using h c
      rw [hrest]

/-- Settles O30: the laws of one write, and the canonical form as a normal form of what a memory reads. -/
theorem memoryIsPlainStorage : Obligations.MemoryIsPlainStorage :=
  ⟨fun m a v hm => ⟨memRead_memWrite_same hm a v, wf_memWrite hm a v, fun _ hc => memRead_memWrite_other m v hc⟩,
    fun _ _ hm hm' h => eq_of_reads_alike hm hm' h⟩

/-! ### Host moves -/

theorem not_inRange {cfg : Config} {p n : Nat} (h : cfg.dmemBytes < p + n) : ¬ inRange cfg p n = true := by
  simpa [inRange] using h

/-- Settles O8: the idle step, then a read and a write inside `DMEM` and past its end. -/
theorem hostMovesLeaveTheEnginesAlone : Obligations.HostMovesLeaveTheEnginesAlone := by
  refine ⟨fun s h => ?idle, fun s a n h => serve_readMem h, fun s a bs h => ?write, fun s a n h => ?readPast,
    fun s a bs h => ?writePast⟩
  case idle => exact step_idle h
  case write =>
    exact ⟨_, serve_writeMem h, rfl, rfl, rfl, rfl, rfl, rfl, rfl,
      fun c hc => memRead_memWriteBytes_other bs _ _ _ hc, fun hm => memReadBytes_memWriteBytes bs hm a⟩
  case readPast => exact if_neg (not_inRange h)
  case writePast => exact if_neg (not_inRange h)

/-! ### The STATUS word -/

theorem Sce.pending_lt (e : Sce) : e.pending < 2 ^ 5 := by
  unfold Sce.pending
  split <;> omega

theorem ofBool_field_getLsbD (b : Bool) (k i : Nat) (hk : k < 32) :
    ((BitVec.ofBool b).setWidth 32 <<< k).getLsbD i = (decide (i = k) && b) := by
  have hbit : (BitVec.ofBool b).getLsbD (i - k) = (decide (i - k = 0) && b) := BitVec.getLsbD_ofBool b (i - k)
  rw [BitVec.getLsbD_shiftLeft, BitVec.getLsbD_setWidth, hbit]
  by_cases hi : i = k
  · simp [hi, hk]
  · have hlow : i < k ∨ i - k ≠ 0 := by omega
    obtain h | h := hlow <;> simp [hi, h]

/-- Each bit of `STATUS`, by the field that it stands in. -/
theorem statusWord_getLsbD (s : State) {i : Nat} (hi : i < 32) : s.statusWord.getLsbD i =
    (s.code.getLsbD i || (decide (i = 8) && s.abort) || (decide (i = 9) && s.bce.valid) ||
      (decide (i = 10) && s.sce.valid) ||
      (decide (16 ≤ i) && (BitVec.ofNat 5 s.sce.pending).getLsbD (i - 16))) := by
  simp only [State.statusWord, BitVec.getLsbD_or, ofBool_field_getLsbD _ _ _ (by decide : 8 < 32),
    ofBool_field_getLsbD _ _ _ (by decide : 9 < 32), ofBool_field_getLsbD _ _ _ (by decide : 10 < 32),
    BitVec.getLsbD_shiftLeft, BitVec.getLsbD_setWidth, hi, show i - 16 < 32 by omega, decide_true, Bool.true_and]
  simp only [← decide_not, Nat.not_lt]

theorem statusWord_code (s : State) : s.statusWord.extractLsb' 0 8 = s.code := by
  apply BitVec.eq_of_getLsbD_eq
  intro i hi
  rw [BitVec.getLsbD_extractLsb', statusWord_getLsbD s (by omega)]
  simp [hi, show i ≠ 8 by omega, show i ≠ 9 by omega, show i ≠ 10 by omega, show ¬ 16 ≤ i by omega]

theorem statusWord_pending (s : State) : s.statusWord.extractLsb' 16 5 = BitVec.ofNat 5 s.sce.pending := by
  apply BitVec.eq_of_getLsbD_eq
  intro i hi
  rw [BitVec.getLsbD_extractLsb', statusWord_getLsbD s (by omega), BitVec.getLsbD_of_ge s.code _ (by omega)]
  simp [hi, show 16 + i ≠ 8 by omega, show 16 + i ≠ 9 by omega, show 16 + i ≠ 10 by omega]

/-- The two reserved ranges. -/
theorem statusWord_reserved (s : State) {i : Nat} (hi : i < 32) (h : 11 ≤ i ∧ i ≤ 15 ∨ 21 ≤ i) :
    s.statusWord.getLsbD i = false := by
  rw [statusWord_getLsbD s hi, BitVec.getLsbD_of_ge s.code _ (by omega)]
  have hpending : 16 ≤ i → (BitVec.ofNat 5 s.sce.pending).getLsbD (i - 16) = false :=
    fun _ => BitVec.getLsbD_of_ge _ _ (by omega)
  simpa [show i ≠ 8 by omega, show i ≠ 9 by omega, show i ≠ 10 by omega] using hpending

/-- Settles O24: each clause bit by bit; the pending count fits its five bits. -/
theorem statusWordShowsItsFields : Obligations.StatusWordShowsItsFields := by
  intro s
  refine ⟨statusWord_code s, ?abort, ?bkValid, ?scValid, ?low, ?pending, ?high⟩
  case abort | bkValid | scValid =>
    rw [statusWord_getLsbD s (by decide), BitVec.getLsbD_of_ge s.code _ (by decide)]
    simp
  case low | high =>
    apply BitVec.eq_of_getLsbD_eq
    intro i hi
    rw [BitVec.getLsbD_extractLsb', statusWord_reserved s (by omega) (by omega)]
    simp
  case pending =>
    rw [statusWord_pending, BitVec.toNat_ofNat, Nat.mod_eq_of_lt (Sce.pending_lt _), Sce.pending]

end Sys2Proof.Machine

/-! Where each command completes, and what it leaves alone (spec/41_block_key_schedule.md to spec/44_stream_combine.md,
spec/20_memory.md R34, spec/10_state.md R18). -/

namespace Sys2Proof.Machine

/-! ### Completion -/

theorem exec_of_admits {i : Instr} {s : State} (ha : s.abort = false) (h : Admits i s) :
    exec i s = .next (effectOf i s).succeed := exec_succeeds ha h

/-- Settles O9: the checks admit the command, and its effect writes the block engine only. -/
theorem bcKeyCompletes : Obligations.BcKeyCompletes := by
  intro s a alen ha hrange hlen
  rw [exec_of_admits ha (admits_bcKey.2 ⟨hrange, hlen⟩), succeed_effectOf_bcKey]

/-- What storing a block leaves: the block, every other byte, and every other register. -/
theorem storeBlock_succeed_spec {s : State} (hm : Memory.wf s.dmem = true) (b : Nat) (q : Quad) :
    memReadBytes (s.storeBlock b q).succeed.dmem b 16 = quadBytes q ∧
    (∀ c, c < b ∨ b + 16 ≤ c → memRead (s.storeBlock b q).succeed.dmem c = memRead s.dmem c) ∧
    (s.storeBlock b q).succeed = { s with dmem := (s.storeBlock b q).succeed.dmem, code := 0x00 } := by
  have hread := memReadBytes_memWriteBytes (quadBytes q) hm b
  have hother := memRead_memWriteBytes_other (quadBytes q) s.dmem b
  rw [quadBytes_length] at hread hother
  rw [State.succeed_dmem, State.storeBlock_dmem]
  refine ⟨hread, hother, ?_⟩
  simp only [State.storeBlock, State.succeed, Code.toByte]

/-- Settles O10: all 16 source bytes are read before the block is stored. -/
theorem bcEncCompletes : Obligations.BcEncCompletes := fun _ a b ha hv hsrc hdst hm =>
  ⟨_, exec_of_admits (i := .bcEnc a b) ha (admits_bcEnc.2 ⟨hv, hsrc, hdst⟩), storeBlock_succeed_spec hm b _⟩

/-- Settles O11: as `BC.ENC`, with `DEC_BLOCK`. -/
theorem bcDecCompletes : Obligations.BcDecCompletes := fun _ a b ha hv hsrc hdst hm =>
  ⟨_, exec_of_admits (i := .bcDec a b) ha (admits_bcDec.2 ⟨hv, hsrc, hdst⟩), storeBlock_succeed_spec hm b _⟩

theorem clearKey_changes_only_bce (s : State) :
    s.clearKey = { s with bce := s.clearKey.bce, draws := s.clearKey.draws } := by
  unfold State.clearKey
  split <;> rfl

/-- Settles O12: with `BK_VALID` = 0 already, clearing changes nothing. -/
theorem bcClrCompletes : Obligations.BcClrCompletes := by
  intro s ha
  refine ⟨_, exec_of_admits (i := .bcClr) ha admits_bcClr, s.clearKey_valid, ?_, fun hv => ?_⟩
  · exact congrArg State.succeed (clearKey_changes_only_bce s)
  · exact congrArg State.succeed (s.clearKey_of_not_valid hv)

/-- Settles O13: the checks admit the command, and its effect is key setup and IV setup. -/
theorem scInitCompletes : Obligations.ScInitCompletes := by
  intro s a b blen ha hkey hiv hlen
  exact ⟨_, exec_of_admits (i := .scInit a 16 b blen) ha (admits_scInit.2 ⟨hkey, hiv, rfl, hlen⟩), rfl, rfl⟩

/-- Settles O14: the loop byte by byte; the ranges may meet only when they start together. -/
theorem scXorCompletes : Obligations.ScXorCompletes := by
  intro s a alen b blen ha hv hsrc hdst hcap hoverlap hm
  refine ⟨_, exec_of_admits (i := .scXor a alen b blen) ha (admits_scXor.2 ⟨hv, hsrc, hdst, hcap, hoverlap⟩),
    fun p hp => ?_, fun c hc => ?_, ?_, ?_⟩
  · exact memRead_xorLoop_inside _ _ _ _ hm alen (by omega) hp
  · exact memRead_xorLoop_other _ _ _ _ _ _ hc
  · exact xorLoop_fst _ _ _ _ _ _
  · simp only [effectOf, State.combine, State.succeed, Code.toByte]

/-- Settles O15: the free registers have `SC_VALID` = 0 and `KS_POS` in range. -/
theorem scClrCompletes : Obligations.ScClrCompletes := by
  intro s ha
  exact ⟨_, exec_of_admits (i := .scClr) ha admits_scClr, rfl, freeSce_ksPos_le s.draws,
    Sce.pending_of_not_valid rfl, rfl⟩

end Sys2Proof.Machine

/-! `SC.INIT` from its descriptor on (spec/43_stream_state.md R105); the frame and the footprint of every command
(spec/20_memory.md R34); the independence of the two engines (spec/10_state.md R18). -/

namespace Sys2Proof.Machine

/-! ### SC.INIT from its descriptor on -/

theorem decode_scInit {c : Cmd5} (h : c.op = 0x20) (hrsv : c.rsv = 0) :
    decode c = .ok (.scInit c.w1.toNat c.w2.toNat c.w3.toNat c.w4.toNat) := by
  rw [decode_of_rsv_zero hrsv]
  simp [decodeOp, h, requireZero]

theorem exec_scInit_of_not_aborted {s : State} (ha : s.abort = false) (a alen b blen : Nat) :
    exec (.scInit a alen b blen) s = .next (
      if s.cfg.dmemBytes < a + alen ∨ s.cfg.dmemBytes < b + blen then s.raiseAbort .addrRange
      else if alen ≠ 16 then s.raiseFail .invalidKeyLength
      else if blen ≠ 0 ∧ blen ≠ 8 then s.raiseFail .invalidIVLength
      else (effectOf (.scInit a alen b blen) s).succeed) := by
  rw [exec_eq_runCommand, checksOf]
  simp only [runCommand_cons ha, runCommand_nil ha, rangeCheck_bad, legalScKey_eq_false, legalScIv_eq_false, ite_or]
  split_ifs <;> rfl

/-- Settles O18: the descriptor's three ways, the last one with the checks of `SC.INIT` in their order. -/
theorem scInitDescriptorFollowsItsRule : Obligations.ScInitDescriptorFollowsItsRule := by
  intro c s hop
  have hrefused (h : c.rsv ≠ 0) : ∃ e, decode c = .error e := ⟨_, decode_of_rsv_ne_zero h⟩
  rw [runDescriptor_eq_of_decode hrefused (fun h => decode_scInit hop (not_not.1 h))
    (exec_scInit_of_not_aborted · _ _ _ _)]
  rfl

/-! ### The frame of every command -/

@[simp] theorem effectOf_inbox (i : Instr) (s : State) : (effectOf i s).inbox = s.inbox := by
  cases i <;> simp [effectOf]

@[simp] theorem effectOf_reply (i : Instr) (s : State) : (effectOf i s).reply = s.reply := by
  cases i <;> simp [effectOf]

theorem effectOf_sce_of_block {i : Instr} (h : isBlockCommand i = true) (s : State) : (effectOf i s).sce = s.sce := by
  cases i with
  | scInit a alen b blen | scXor a alen b blen | scClr => exact absurd h Bool.false_ne_true
  | _ => simp [effectOf]

theorem effectOf_bce_of_not_key_command {i : Instr} (hkey : ∀ a alen, i ≠ .bcKey a alen) (hclr : i ≠ .bcClr) (s : State) :
    (effectOf i s).bce = s.bce := by
  cases i with
  | bcKey a alen => exact absurd rfl (hkey a alen)
  | bcClr => exact absurd rfl hclr
  | _ => simp [effectOf]

theorem effectOf_draws {i : Instr} (hbc : i ≠ .bcClr) (hsc : i ≠ .scClr) (s : State) :
    (effectOf i s).draws = s.draws := by
  cases i with
  | bcClr => exact absurd rfl hbc
  | scClr => exact absurd rfl hsc
  | _ => simp [effectOf]

theorem not_inSpan_iff (start len c : Nat) : ¬ inSpan (start, len) c ↔ c < start ∨ start + len ≤ c := by
  simp only [inSpan]
  omega

theorem memRead_effectOf_outside {i : Instr} {c : Nat} (h : ¬ inSpan (writeRange i) c) (s : State) :
    memRead (effectOf i s).dmem c = memRead s.dmem c := by
  have store {b : Nat} (q : Quad) (hc : ¬ inSpan (b, 16) c) :
      memRead (s.storeBlock b q).dmem c = memRead s.dmem c := by
    rw [State.storeBlock_dmem]
    exact memRead_memWriteBytes_other _ _ _ _ (quadBytes_length q ▸ (not_inSpan_iff _ _ _).1 hc)
  cases i with
  | bcEnc a b | bcDec a b => exact store _ h
  | scXor a alen b blen =>
    rw [effectOf, State.combine_dmem]
    exact memRead_xorLoop_other _ _ _ _ _ _ ((not_inSpan_iff _ _ _).1 h)
  | _ => simp [effectOf]

/-- Settles O21: a command turned away writes the code and the latch only; the effects keep their frames. -/
theorem commandsKeepTheirFrame : Obligations.CommandsKeepTheirFrame := by
  intro i s t h
  obtain ⟨-, -, rfl⟩ | ⟨k, -, rfl⟩ := exec_outcome h
  · refine ⟨effectOf_cfg i s, effectOf_inbox i s, effectOf_reply i s, fun hi => effectOf_sce_of_block hi s, fun hi => ?_,
      fun hkey hclr => effectOf_bce_of_not_key_command hkey hclr s, fun hbc hsc => effectOf_draws hbc hsc s,
      fun c hc => memRead_effectOf_outside hc s⟩
    apply effectOf_bce_of_not_key_command
    · rintro a alen rfl
      nomatch hi
    · rintro rfl
      nomatch hi
  · exact ⟨rfl, rfl, rfl, fun _ => rfl, fun _ => rfl, fun _ _ => rfl, fun _ _ => rfl, fun _ _ => rfl⟩

/-! ### Running a command from two related states -/

/-- The same checks go the same way from two states with the same latch. -/
theorem runCommand_related (R : State → State → Prop) {checks : List Check} {effect : State → State} {s t : State}
    (s' : State) (h : runCommand checks effect s = .next t) (habort : s'.abort = s.abort)
    (haway : ∀ k, R (s.turnAway k) (s'.turnAway k))
    (heffect : (∀ k ∈ checks, k.bad = false) → R (effect s).succeed (effect s').succeed) :
    ∃ t', runCommand checks effect s' = .next t' ∧ R t t' := by
  unfold runCommand at h ⊢
  rw [habort]
  split at h
  · next k hk =>
    cases h
    exact ⟨_, rfl, haway k⟩
  · next hpass =>
    cases h
    rw [firstFailing_eq_none_iff] at hpass
    exact ⟨_, rfl, heffect (List.forall_mem_cons.1 hpass).2⟩

theorem exec_related (R : State → State → Prop) {i : Instr} {s t : State} (s' : State) (h : exec i s = .next t)
    (habort : s'.abort = s.abort) (hchecks : checksOf i s' = checksOf i s)
    (haway : ∀ k, R (s.turnAway k) (s'.turnAway k))
    (heffect : Admits i s → R (effectOf i s).succeed (effectOf i s').succeed) :
    ∃ t', exec i s' = .next t' ∧ R t t' := by
  rw [exec_eq_runCommand] at h ⊢
  rw [hchecks]
  exact runCommand_related R s' h habort haway heffect

/-- The checks read the parameters and the valid flags only. -/
theorem checksOf_congr (i : Instr) {s : State} (s' : State) (hcfg : s'.cfg = s.cfg)
    (hbc : isBlockCommand i = true → s'.bce.valid = s.bce.valid)
    (hsc : isBlockCommand i = false → s'.sce.valid = s.sce.valid) : checksOf i s' = checksOf i s := by
  cases i with
  | bcEnc a b | bcDec a b => simp [checksOf, bcNotReady, rangeCheck, hcfg, hbc rfl]
  | scXor a alen b blen => simp [checksOf, scNotReady, rangeCheck, hcfg, hsc rfl]
  | _ => simp [checksOf, rangeCheck, hcfg]

/-! ### The two engines -/

theorem turnAway_withSce (s : State) (e : Sce) (k : Check) :
    ({ s with sce := e } : State).turnAway k = { s.turnAway k with sce := e } := by
  unfold State.turnAway
  split <;> rfl

theorem turnAway_withBce (s : State) (e : Bce) (k : Check) :
    ({ s with bce := e } : State).turnAway k = { s.turnAway k with bce := e } := by
  unfold State.turnAway
  split <;> rfl

theorem effectOf_withSce {i : Instr} (h : isBlockCommand i = true) (s : State) (e : Sce) :
    effectOf i { s with sce := e } = { effectOf i s with sce := e } := by
  cases i with
  | bcKey a alen => simp only [effectOf]
  | bcEnc a b | bcDec a b => simp only [effectOf, State.storeBlock, State.loadBlock]
  | bcClr =>
    simp only [effectOf, State.clearKey]
    split <;> rfl
  | scInit a alen b blen | scXor a alen b blen | scClr => exact absurd h Bool.false_ne_true

theorem effectOf_withBce {i : Instr} (h : isBlockCommand i = false) (s : State) (e : Bce) :
    effectOf i { s with bce := e } = { effectOf i s with bce := e } := by
  cases i with
  | scInit a alen b blen => simp only [effectOf]
  | scXor a alen b blen => simp only [effectOf, State.combine]
  | scClr => simp only [effectOf, State.clearSession]
  | bcKey a alen | bcEnc a b | bcDec a b | bcClr => exact absurd h.symm Bool.false_ne_true

/-- Settles O23: neither the checks nor the effect of a command read the other engine. -/
theorem enginesAreIndependent : Obligations.EnginesAreIndependent := by
  refine ⟨fun i s t e hi h => ?block, fun i s t e hi h => ?stream⟩
  case block =>
    have hchecks : checksOf i { s with sce := e } = checksOf i s :=
      checksOf_congr i { s with sce := e } rfl (fun _ => rfl) (fun hno => absurd (hno.symm.trans hi) Bool.false_ne_true)
    obtain ⟨t', ht', rfl⟩ := exec_related (fun t t' => t' = { t with sce := e }) { s with sce := e } h rfl
      hchecks (turnAway_withSce s e) (fun _ => congrArg State.succeed (effectOf_withSce hi s e))
    exact ht'
  case stream =>
    have hchecks : checksOf i { s with bce := e } = checksOf i s :=
      checksOf_congr i { s with bce := e } rfl (fun hno => absurd (hi.symm.trans hno) Bool.false_ne_true) (fun _ => rfl)
    obtain ⟨t', ht', rfl⟩ := exec_related (fun t t' => t' = { t with bce := e }) { s with bce := e } h rfl
      hchecks (turnAway_withBce s e) (fun _ => congrArg State.succeed (effectOf_withBce hi s e))
    exact ht'

end Sys2Proof.Machine

/-! No command depends on a byte outside its read ranges (spec/20_memory.md R34). -/

namespace Sys2Proof.Machine

/-- Two memories hold the same byte at every address of a range. -/
def AgreeOn (r : Nat × Nat) (m m' : List Host.Cell) : Prop := ∀ c, inSpan r c → memRead m c = memRead m' c

theorem memReadBytes_of_agreeOn {m m' : List Host.Cell} {a n : Nat} (h : AgreeOn (a, n) m m') :
    memReadBytes m a n = memReadBytes m' a n :=
  memReadBytes_congr fun i hi => h (a + i) ⟨by simp, by simpa using hi⟩

theorem ivBytes_of_agreeOn {m m' : List Host.Cell} {b blen : Nat} (h : AgreeOn (b, blen) m m') :
    ivBytes m b blen = ivBytes m' b blen := by
  unfold ivBytes
  split
  · next h8 =>
    subst h8
    exact memReadBytes_of_agreeOn h
  · rfl

theorem turnAway_withDmem (s : State) (m : List Host.Cell) (k : Check) :
    ({ s with dmem := m } : State).turnAway k = { s.turnAway k with dmem := m } := by
  unfold State.turnAway
  split <;> rfl

section
variable {i : Instr} {s : State} {m : List Host.Cell}

/-- From memories that agree on the read ranges the effects differ in memory only. -/
theorem effectOf_withDmem (h1 : AgreeOn (readRange i) m s.dmem) (h2 : AgreeOn (readRange2 i) m s.dmem) :
    effectOf i { s with dmem := m } = { effectOf i s with dmem := (effectOf i { s with dmem := m }).dmem } := by
  cases i with
  | bcKey a alen => simp only [effectOf, memReadBytes_of_agreeOn h1]
  | bcEnc a b | bcDec a b => simp only [effectOf, State.storeBlock]
  | bcClr =>
    simp only [effectOf, State.clearKey]
    split <;> rfl
  | scInit a alen b blen => simp only [effectOf, memReadBytes_of_agreeOn h1, ivBytes_of_agreeOn h2]
  | scXor a alen b blen => simp only [effectOf, State.combine, xorLoop_fst]
  | scClr => simp only [effectOf, State.clearSession]

theorem memRead_storeBlock_inside (hm : Memory.wf s.dmem = true) {b : Nat} (q : Quad) {p : Nat} (hp : p < 16) :
    memRead (s.storeBlock b q).dmem (b + p) = (quadBytes q)[p]'(by rwa [quadBytes_length]) := by
  rw [State.storeBlock_dmem]
  exact memRead_memWriteBytes_inside _ hm b p (by rwa [quadBytes_length])

/-- What an admitted command writes depends on the bytes it reads only. -/
theorem memRead_effectOf_inside (hs : Memory.wf s.dmem = true) (hm : Memory.wf m = true) (hadm : Admits i s)
    (hread : AgreeOn (readRange i) m s.dmem) {c : Nat} (hc : inSpan (writeRange i) c) :
    memRead (effectOf i { s with dmem := m }).dmem c = memRead (effectOf i s).dmem c := by
  obtain ⟨p, rfl⟩ : ∃ p, c = (writeRange i).1 + p := Nat.exists_eq_add_of_le hc.1
  have hp : p < (writeRange i).2 := Nat.add_lt_add_iff_left.1 hc.2
  cases i with
  | bcEnc a b | bcDec a b =>
    have hload : ({ s with dmem := m } : State).loadBlock a = s.loadBlock a :=
      congrArg quadOfBytes (memReadBytes_of_agreeOn hread)
    rw [effectOf, effectOf, hload]
    rw [writeRange, memRead_storeBlock_inside (s := { s with dmem := m }) hm _ hp, memRead_storeBlock_inside hs _ hp]
  | scXor a alen b blen =>
    obtain ⟨-, -, -, hcap, hoverlap⟩ := admits_scXor.1 hadm
    have hp : p < alen := hp
    have hsource : memRead m (a + p) = memRead s.dmem (a + p) :=
      hread (a + p) ⟨by simp [readRange], by simpa [readRange] using hp⟩
    rw [effectOf, effectOf, State.combine_dmem, State.combine_dmem, writeRange,
      memRead_xorLoop_inside _ _ _ _ hm _ (by omega) hp, memRead_xorLoop_inside _ _ _ _ hs _ (by omega) hp, hsource]
  | _ => exact absurd hp (Nat.not_lt_zero p)

end

/-- Settles O22: outside the write range each command leaves both memories as they were, and inside it writes what the read
ranges determine. -/
theorem commandsReadOnlyTheirFootprint : Obligations.CommandsReadOnlyTheirFootprint := by
  intro i s t m h hs hm hread
  have h1 : AgreeOn (readRange i) m s.dmem := fun c hc => hread c (.inl hc)
  have h2 : AgreeOn (readRange2 i) m s.dmem := fun c hc => hread c (.inr hc)
  have hchecks : checksOf i { s with dmem := m } = checksOf i s :=
    checksOf_congr i { s with dmem := m } rfl (fun _ => rfl) (fun _ => rfl)
  have houtside (c : Nat) (hc : ¬ inSpan (writeRange i) c) (hold : memRead m c = memRead s.dmem c) :
      memRead (effectOf i { s with dmem := m }).dmem c = memRead (effectOf i s).dmem c := by
    rw [memRead_effectOf_outside hc, memRead_effectOf_outside hc]
    exact hold
  obtain ⟨t', ht', hrel⟩ := exec_related (fun t t' => t' = { t with dmem := t'.dmem } ∧
      ∀ c, memRead m c = memRead s.dmem c → memRead t'.dmem c = memRead t.dmem c) { s with dmem := m } h rfl hchecks
    (fun k => by simp [turnAway_withDmem])
    (fun hadm => ⟨congrArg State.succeed (effectOf_withDmem h1 h2), fun c hold => by
      by_cases hc : inSpan (writeRange i) c
      · exact memRead_effectOf_inside hs hm hadm h1 hc
      · exact houtside c hc hold⟩)
  obtain ⟨hsame, hmem⟩ := hrel
  refine ⟨t', ht', hsame, hmem, fun hcode c hc => ?_⟩
  have hcode' : t'.code = 0x00 := by rw [hsame]; exact hcode
  obtain ⟨-, hadm, rfl⟩ := exec_of_code_ok h hcode
  obtain ⟨-, -, rfl⟩ := exec_of_code_ok ht' hcode'
  exact memRead_effectOf_inside hs hm hadm h1 hc

end Sys2Proof.Machine

/-! No unspecified register value is ever observed (spec/70_reset_and_hazards.md R186): a relation between two machines that
every step keeps. -/

namespace Sys2Proof.Machine

/-! ### Stream states that give the same keystream -/

/-- `X`, `C` and `CARRY` are the same. -/
structure Sce.SameRegisters (e f : Sce) : Prop where
  x : e.x = f.x
  c : e.c = f.c
  carry : e.carry = f.carry

/-- The registers and the pending bytes are the same; consumed bytes of `KSBUF` may differ. -/
structure Sce.StreamEq (e f : Sce) : Prop where
  regs : e.SameRegisters f
  ksPos : e.ksPos = f.ksPos
  pending : ∀ i, e.ksPos ≤ i → e.ksbuf[i]? = f.ksbuf[i]?

section
variable {e f : Sce}

theorem sameRegisters_nextState (cfg : Config) (h : e.SameRegisters f) :
    (nextState cfg e).SameRegisters (nextState cfg f) := by
  constructor <;> simp only [nextState, h.x, h.c, h.carry]

theorem extract_ksbuf_congr (cfg : Config) (h : e.SameRegisters f) : (extract cfg e).ksbuf = (extract cfg f).ksbuf := by
  simp only [extract, (sameRegisters_nextState cfg h).x]

theorem streamEq_extract (cfg : Config) (h : e.SameRegisters f) : (extract cfg e).StreamEq (extract cfg f) where
  regs := ⟨(sameRegisters_nextState cfg h).x, (sameRegisters_nextState cfg h).c, (sameRegisters_nextState cfg h).carry⟩
  ksPos := rfl
  pending := fun _ _ => by rw [extract_ksbuf_congr cfg h]

theorem streamEq_refill (cfg : Config) (h : e.StreamEq f) : (refill cfg e).StreamEq (refill cfg f) := by
  unfold refill
  rw [h.ksPos]
  split
  · exact streamEq_extract cfg h.regs
  · exact h

theorem streamEq_advance (h : e.StreamEq f) : (advance e).StreamEq (advance f) where
  regs := ⟨h.regs.x, h.regs.c, h.regs.carry⟩
  ksPos := congrArg (· + 1) h.ksPos
  pending := fun i hi => h.pending i (Nat.le_of_succ_le hi)

theorem ksByte_congr (h : e.StreamEq f) : ksByte e = ksByte f := by
  rw [ksByte, ksByte, h.pending _ le_rfl, h.ksPos]

theorem streamEq_streamAfter (cfg : Config) (h : e.StreamEq f) (n : Nat) :
    (streamAfter cfg e n).StreamEq (streamAfter cfg f n) := by
  induction n generalizing e f with
  | zero => exact h
  | succ n ih => exact ih (streamEq_advance (streamEq_refill cfg h))

theorem keystreamByte_congr (cfg : Config) (h : e.StreamEq f) (p : Nat) : keystreamByte cfg e p = keystreamByte cfg f p :=
  ksByte_congr (streamEq_refill cfg (streamEq_streamAfter cfg h p))

theorem xorLoop_snd_congr (cfg : Config) (h : e.StreamEq f) (a b : Nat) (m : List Host.Cell) (n : Nat) :
    (xorLoop cfg a b e m n).2 = (xorLoop cfg a b f m n).2 := by
  induction n generalizing a b e f m with
  | zero => rfl
  | succ n ih =>
    have hready := streamEq_refill cfg h
    simp only [xorLoop]
    rw [ksByte_congr hready]
    exact ih (streamEq_advance hready) _ _ _

/-- Key setup overwrites every register. -/
theorem sameRegisters_keyMix (cfg : Config) (key : List Byte) (e f : Sce) :
    (keyMix cfg key e).SameRegisters (keyMix cfg key f) := ⟨rfl, rfl, rfl⟩

theorem sameRegisters_nextState4 (cfg : Config) (h : e.SameRegisters f) :
    (nextState4 cfg e).SameRegisters (nextState4 cfg f) :=
  have next {e f : Sce} (h : e.SameRegisters f) := sameRegisters_nextState cfg h
  next (next (next (next h)))

theorem sameRegisters_remix (h : e.SameRegisters f) : (remix e).SameRegisters (remix f) := by
  constructor <;> simp only [remix, h.x, h.c, h.carry]

theorem sameRegisters_ivMixIn (cfg : Config) (iv : List Byte) (h : e.SameRegisters f) :
    (ivMixIn cfg iv e).SameRegisters (ivMixIn cfg iv f) := by
  constructor <;> simp only [ivMixIn, h.x, h.c, h.carry]

/-- After `SC.INIT` nothing is left of the stream state before it but consumed bytes. -/
theorem streamEq_initSession (cfg : Config) (key iv : List Byte) (e f : Sce) :
    (initSession cfg key iv e).StreamEq (initSession cfg key iv f) := by
  have hkey : (keySetup cfg key e).SameRegisters (keySetup cfg key f) :=
    sameRegisters_remix (sameRegisters_nextState4 cfg (sameRegisters_keyMix cfg key e f))
  have hiv : (ivSetup cfg iv (keySetup cfg key e)).SameRegisters (ivSetup cfg iv (keySetup cfg key f)) :=
    sameRegisters_nextState4 cfg (sameRegisters_ivMixIn cfg iv hkey)
  refine ⟨⟨hiv.x, hiv.c, hiv.carry⟩, rfl, fun i hi => ?_⟩
  have h16 : 16 ≤ i := hi
  rw [Vector.getElem?_eq_none h16, Vector.getElem?_eq_none h16]

end

/-! ### Machines that can never be told apart -/

/-- The block engines agree, but for `RK` while `BK_VALID` = 0. -/
def Bce.VisibleEq (b b' : Bce) : Prop := b.valid = b'.valid ∧ (b.valid = true → b.rk = b'.rk)

/-- The stream engines agree, but for consumed bytes, and for every register while `SC_VALID` = 0. -/
def Sce.VisibleEq (e e' : Sce) : Prop := e.valid = e'.valid ∧ (e.valid = true → e.StreamEq e')

theorem Bce.VisibleEq.rfl {b : Bce} : b.VisibleEq b := ⟨.refl _, fun _ => .refl _⟩

theorem Sce.StreamEq.rfl {e : Sce} : e.StreamEq e := ⟨⟨.refl _, .refl _, .refl _⟩, .refl _, fun _ _ => .refl _⟩

theorem Sce.VisibleEq.rfl {e : Sce} : e.VisibleEq e := ⟨.refl _, fun _ => .rfl⟩

/-- The relation of R186 engine by engine. -/
theorem State.visibleEq_iff {s t : State} : s.VisibleEq t ↔
    s.bce.VisibleEq t.bce ∧ s.sce.VisibleEq t.sce ∧ t = { s with bce := t.bce, sce := t.sce } := by
  constructor
  · intro h
    refine ⟨⟨h.bkValid, h.rk⟩, ⟨h.scValid, fun hv => ⟨⟨h.x hv, h.c hv, h.carry hv⟩, h.ksPos hv, h.pending hv⟩⟩, ?_⟩
    rw [h.cfg, h.code, h.abort, h.dmem, h.inbox, h.reply, h.draws]
  · rintro ⟨⟨hbk, hrk⟩, ⟨hsc, hstream⟩, ht⟩
    rw [ht]
    exact ⟨rfl, rfl, rfl, rfl, rfl, rfl, rfl, hbk, hsc, hrk, fun hv => (hstream hv).regs.x, fun hv => (hstream hv).regs.c,
      fun hv => (hstream hv).regs.carry, fun hv => (hstream hv).ksPos, fun hv => (hstream hv).pending⟩

theorem State.VisibleEq.elim {s t : State} (h : s.VisibleEq t) :
    ∃ b e, s.bce.VisibleEq b ∧ s.sce.VisibleEq e ∧ t = { s with bce := b, sce := e } :=
  have ⟨hb, he, ht⟩ := State.visibleEq_iff.1 h
  ⟨t.bce, t.sce, hb, he, ht⟩

theorem State.VisibleEq.intro (s : State) {b : Bce} {e : Sce} (hb : s.bce.VisibleEq b) (he : s.sce.VisibleEq e) :
    s.VisibleEq { s with bce := b, sce := e } := State.visibleEq_iff.2 ⟨hb, he, rfl⟩

theorem State.VisibleEq.statusWord {s t : State} (h : s.VisibleEq t) : s.statusWord = t.statusWord := by
  have hpending : s.sce.pending = t.sce.pending := by
    unfold Sce.pending
    rw [← h.scValid]
    split
    · next hv => rw [h.ksPos hv]
    · rfl
  rw [State.statusWord, State.statusWord, h.code, h.abort, h.bkValid, h.scValid, hpending]

theorem State.VisibleEq.withReply {s t : State} (h : s.VisibleEq t) (r : Reply) :
    ({ s with reply := r } : State).VisibleEq { t with reply := r } := by
  obtain ⟨b, e, hb, he, rfl⟩ := h.elim
  exact .intro { s with reply := r } hb he

theorem State.VisibleEq.withInbox {s t : State} (h : s.VisibleEq t) (moves : List HostMove) :
    ({ s with inbox := moves } : State).VisibleEq { t with inbox := moves } := by
  obtain ⟨b, e, hb, he, rfl⟩ := h.elim
  exact .intro { s with inbox := moves } hb he

theorem State.VisibleEq.turnAway {s t : State} (h : s.VisibleEq t) (k : Check) :
    (s.turnAway k).VisibleEq (t.turnAway k) := by
  obtain ⟨b, e, hb, he, rfl⟩ := h.elim
  unfold State.turnAway
  split
  · exact .intro (s.raiseFail k.code) hb he
  · exact .intro (s.raiseAbort k.code) hb he

theorem State.VisibleEq.succeed {s t : State} (h : s.VisibleEq t) : s.succeed.VisibleEq t.succeed := by
  obtain ⟨b, e, hb, he, rfl⟩ := h.elim
  exact .intro s.succeed hb he

theorem State.VisibleEq.checksOf {s t : State} (h : s.VisibleEq t) (i : Instr) : checksOf i t = checksOf i s :=
  checksOf_congr i t h.cfg.symm (fun _ => h.bkValid.symm) (fun _ => h.scValid.symm)

/-- The effect of an admitted command reads a register only while the valid flag that its checks ask for is set. -/
theorem State.VisibleEq.effectOf {i : Instr} {s t : State} (h : s.VisibleEq t) (hadm : Admits i s) :
    (effectOf i s).VisibleEq (effectOf i t) := by
  obtain ⟨b, e, hb, he, rfl⟩ := h.elim
  have ⟨hbvalid, hrk⟩ := hb
  have ⟨hevalid, hstream⟩ := he
  cases i with
  | bcKey a alen =>
    simp only [Machine.effectOf]
    exact .intro { s with bce := _ } .rfl he
  | bcEnc a b | bcDec a b =>
    obtain ⟨hv, -⟩ := admits_bcEnc.1 hadm
    simp only [Machine.effectOf, State.storeBlock, State.loadBlock, ← hrk hv]
    generalize memWriteBytes s.dmem b _ = stored
    exact .intro { s with dmem := stored } hb he
  | bcClr =>
    simp only [Machine.effectOf, State.clearKey, ← hbvalid]
    split
    · exact .intro { s with bce := _, draws := _ } .rfl he
    · exact .intro s hb he
  | scInit a alen b blen =>
    exact .intro (Machine.effectOf (.scInit a alen b blen) s) hb ⟨rfl, fun _ => streamEq_initSession _ _ _ _ _⟩
  | scXor a alen b blen =>
    obtain ⟨hv, -⟩ := admits_scXor.1 hadm
    simp only [Machine.effectOf, State.combine, xorLoop_fst, ← xorLoop_snd_congr s.cfg (hstream hv)]
    exact .intro { s with sce := _, dmem := _ } hb
      ⟨by simp only [streamAfter_valid, hevalid], fun _ => streamEq_streamAfter _ (hstream hv) _⟩
  | scClr => exact .intro s.clearSession hb .rfl

theorem State.VisibleEq.runDescriptor {w : Cmd5} {s s' t : State} (h : s.VisibleEq t)
    (hrun : runDescriptor w s = .next s') : ∃ t', runDescriptor w t = .next t' ∧ s'.VisibleEq t' := by
  cases hdec : decode w with
  | error e =>
    rw [runDescriptor_of_decode_error hdec] at hrun ⊢
    exact runCommand_related State.VisibleEq t hrun h.abort.symm h.turnAway (fun _ => h.succeed)
  | ok i =>
    rw [runDescriptor_of_decode_ok hdec] at hrun ⊢
    exact exec_related State.VisibleEq t hrun h.abort.symm (h.checksOf i) h.turnAway
      (fun hadm => (h.effectOf hadm).succeed)

theorem State.VisibleEq.resetEvent {s t : State} (h : s.VisibleEq t) : s.resetEvent.VisibleEq t.resetEvent := by
  obtain ⟨b, e, -, -, rfl⟩ := h.elim
  exact .intro s.resetEvent .rfl .rfl

theorem State.VisibleEq.powerOnEvent {s t : State} (h : s.VisibleEq t) : s.powerOnEvent.VisibleEq t.powerOnEvent := by
  obtain ⟨b, e, -, -, rfl⟩ := h.elim
  exact .intro s.powerOnEvent .rfl .rfl

/-- Serving a move keeps the relation: every answer comes from `STATUS` or from memory. -/
theorem State.VisibleEq.serve {move : HostMove} {s s' t : State} (h : s.VisibleEq t) (hserve : serve move s = .next s') :
    ∃ t', serve move t = .next t' ∧ s'.VisibleEq t' := by
  cases move with
  | command w =>
    obtain ⟨u, hu⟩ := runDescriptor_answers w s
    obtain ⟨u', hu', hrel⟩ := h.runDescriptor hu
    rw [serve_command_eq hu] at hserve
    cases hserve
    exact ⟨_, serve_command_eq hu', hrel.statusWord ▸ hrel.withReply _⟩
  | readStatus =>
    cases hserve
    exact ⟨_, rfl, h.statusWord ▸ h.withReply _⟩
  | readMem a n =>
    obtain ⟨b, e, hb, he, rfl⟩ := h.elim
    obtain ⟨hin, rfl⟩ := serve_readMem_next hserve
    exact ⟨_, serve_readMem hin, .intro { s with reply := .data (memReadBytes s.dmem a n) } hb he⟩
  | writeMem a bs =>
    obtain ⟨b, e, hb, he, rfl⟩ := h.elim
    obtain ⟨hin, rfl⟩ := serve_writeMem_next hserve
    exact ⟨_, serve_writeMem hin, .intro { s with dmem := memWriteBytes s.dmem a bs, reply := .none } hb he⟩
  | reset =>
    cases hserve
    exact ⟨_, rfl, h.resetEvent.withReply _⟩
  | powerOn =>
    cases hserve
    exact ⟨_, rfl, h.powerOnEvent.withReply _⟩

/-- Only a host access outside `DMEM` faults, and the size of `DMEM` is the same. -/
theorem State.VisibleEq.serve_fault {move : HostMove} {s t : State} {r : Fault} (h : s.VisibleEq t)
    (hserve : Machine.serve move s = .fault r) : Machine.serve move t = .fault r := by
  cases move with
  | command w =>
    obtain ⟨u, hu⟩ := runDescriptor_answers w s
    rw [serve_command_eq hu] at hserve
    cases hserve
  | readMem a n | writeMem a bs =>
    simp only [Machine.serve, ← h.cfg] at hserve ⊢
    split_ifs at hserve ⊢
    exact hserve
  | readStatus | reset | powerOn => cases hserve

/-- Settles O29: related machines take the same move, and serving it keeps the relation. -/
theorem unspecifiedRegistersAreNeverObserved : Obligations.UnspecifiedRegistersAreNeverObserved := by
  intro s t h
  refine ⟨h.statusWord, ?_⟩
  cases hinbox : s.inbox with
  | nil =>
    rw [step_idle hinbox, step_idle (h.inbox ▸ hinbox)]
    refine ⟨fun s' hnext => ?_, nofun⟩
    cases hnext
    exact ⟨t, rfl, h⟩
  | cons move rest =>
    rw [step_move hinbox, step_move (h.inbox ▸ hinbox)]
    exact ⟨fun s' hnext => (h.withInbox rest).serve hnext, fun r hfault => (h.withInbox rest).serve_fault hfault⟩

end Sys2Proof.Machine

/-! The block cipher: substitution and diffusion with their inverses (spec/40_constant_tables.md R60 to R65), the key
schedule as a function of the key bytes (spec/41_block_key_schedule.md R84), and the block functions inverse to each other
(spec/42_block_codec.md R93, R95). -/

namespace Sys2Proof.Machine

/-! ### Substitution -/

/-- Settles O31: the nibble at bit `j` is the column that the word-parallel form substitutes. -/
theorem substitutionActsOnEachBitPosition : Obligations.SubstitutionActsOnEachBitPosition := fun k q j hj =>
  ⟨getLsbD_columnsWord (sbox k) q 0 j hj, getLsbD_columnsWord (sbox k) q 1 j hj,
    getLsbD_columnsWord (sbox k) q 2 j hj, getLsbD_columnsWord (sbox k) q 3 j hj⟩

theorem sboxInv_sbox (k : Fin 8) (n : BitVec 4) : sboxInv k (sbox k n) = n := by
  revert k n
  decide

theorem sbox_sboxInv (k : Fin 8) (n : BitVec 4) : sbox k (sboxInv k n) = n := by
  revert k n
  decide

theorem substInv_subst (k : Fin 8) (q : Quad) : substInv k (subst k q) = q := by
  simp only [subst, substInv, mapColumns_mapColumns, sboxInv_sbox, mapColumns_id]

theorem subst_substInv (k : Fin 8) (q : Quad) : subst k (substInv k q) = q := by
  simp only [subst, substInv, mapColumns_mapColumns, sbox_sboxInv, mapColumns_id]

/-- Settles O32: the tables on all nibbles, then column by column on words. -/
theorem substitutionAndInverseCancel : Obligations.SubstitutionAndInverseCancel :=
  ⟨fun k n => ⟨sboxInv_sbox k n, sbox_sboxInv k n⟩, fun k q => ⟨substInv_subst k q, subst_substInv k q⟩⟩

/-! ### Diffusion -/

theorem xor_xor_cancel (a b c : Word) : a ^^^ b ^^^ c ^^^ b ^^^ c = a := by
  calc a ^^^ b ^^^ c ^^^ b ^^^ c = a ^^^ ((b ^^^ b) ^^^ (c ^^^ c)) := by ac_rfl
    _ = a := by simp

theorem diffuseInv_diffuse (q : Quad) : diffuseInv (diffuse q) = q := by
  obtain ⟨r0, r1, r2, r3⟩ := q
  simp only [diffuse, diffuseInv, rotr32_rotl32, Nat.reduceLT, xor_xor_cancel]

theorem diffuse_diffuseInv (q : Quad) : diffuse (diffuseInv q) = q := by
  obtain ⟨r0, r1, r2, r3⟩ := q
  simp only [diffuse, diffuseInv, rotl32_rotr32, Nat.reduceLT, xor_xor_cancel]

theorem diffuse_xor (p q : Quad) : diffuse (p.xor q) = (diffuse p).xor (diffuse q) := by
  simp only [diffuse, Quad.xor, rotl32_xor, Nat.reduceLT, BitVec.shiftLeft_xor_distrib]
  congr 1 <;> ac_rfl

/-- Settles O33: the ten steps undone in reverse order; each step is a rotation, a shift or an XOR, all of them linear. -/
theorem diffusionAndInverseCancel : Obligations.DiffusionAndInverseCancel :=
  ⟨fun q => ⟨diffuseInv_diffuse q, diffuse_diffuseInv q⟩, diffuse_xor⟩

/-! ### The block functions -/

theorem Quad.xor_xor_self (p q : Quad) : (p.xor q).xor q = p := by
  simp [Quad.xor]

theorem decRound_encRound (rk : Vector Word 132) (r : Quad) (i : Fin 32) : decRound rk (encRound rk r i) i = r := by
  unfold decRound encRound
  split_ifs <;> simp only [diffuseInv_diffuse, substInv_subst, Quad.xor_xor_self]

theorem encRound_decRound (rk : Vector Word 132) (r : Quad) (i : Fin 32) : encRound rk (decRound rk r i) i = r := by
  unfold decRound encRound
  split_ifs <;> simp only [diffuse_diffuseInv, subst_substInv, Quad.xor_xor_self]

/-- Steps undone one by one in reverse order. -/
theorem foldl_reverse_foldl {α β : Type} {f g : β → α → β} (h : ∀ b a, g (f b a) a = b) (l : List α) (b : β) :
    l.reverse.foldl g (l.foldl f b) = b := by
  induction l generalizing b with
  | nil => rfl
  | cons a l ih => simp only [List.reverse_cons, List.foldl_append, List.foldl_cons, List.foldl_nil, ih, h]

theorem decBlock_encBlock (rk : Vector Word 132) (r : Quad) : decBlock rk (encBlock rk r) = r := by
  rw [decBlock, encBlock, Quad.xor_xor_self, foldl_reverse_foldl (decRound_encRound rk)]

theorem encBlock_decBlock (rk : Vector Word 132) (r : Quad) : encBlock rk (decBlock rk r) = r := by
  have h := foldl_reverse_foldl (encRound_decRound rk) (List.finRange 32).reverse (r.xor (subkey rk 32))
  rw [List.reverse_reverse] at h
  rw [encBlock, decBlock, h, Quad.xor_xor_self]

/-- Settles O39: whitening and every round are undone by their counterparts. -/
theorem blockFunctionsAreInverse : Obligations.BlockFunctionsAreInverse := fun rk r =>
  ⟨decBlock_encBlock rk r, encBlock_decBlock rk r⟩

/-! ### The key schedule as a function of the key bytes -/

/-- The sixteen bytes that extend a 16-byte key to the packed form: the marker word and three zero words (R84). -/
def markerBytes : List Byte := [1, 0, 0, 0] ++ List.replicate 12 0

theorem wordOf_append_left {bs cs : List Byte} {t : Nat} (h : 4 * t + 4 ≤ bs.length) :
    wordOf (bs ++ cs) t = wordOf bs t := by
  simp only [wordOf]
  congr 1 <;> exact List.getD_append _ _ _ _ (by omega)

theorem wordOf_append_right {bs cs : List Byte} {t u : Nat} (h : 4 * t = bs.length + 4 * u) :
    wordOf (bs ++ cs) t = wordOf cs u := by
  simp only [wordOf]
  congr 1 <;> rw [List.getD_append_right _ _ _ _ (by omega)] <;> congr 1 <;> omega

theorem wordOf_markerBytes {u : Nat} (h : u < 4) : wordOf markerBytes u = if u = 0 then 1 else 0 := by
  revert u
  decide

theorem packWord_extended {key : List Byte} (h : key.length = 16) {j : Nat} (hj : j < 8) :
    packWord (key ++ markerBytes) j = packWord key j := by
  have hlen : (key ++ markerBytes).length / 4 = 8 := by simp [h, markerBytes]
  rw [packWord_of_lt (by omega)]
  obtain hlt | rfl | hgt := lt_trichotomy j (key.length / 4)
  · rw [packWord_of_lt hlt, wordOf_append_left (by omega)]
  · rw [packWord_marker, wordOf_append_right (u := 0) (by omega), wordOf_markerBytes (by decide), if_pos rfl]
  · rw [packWord_of_gt hgt, wordOf_append_right (u := j - 4) (by omega), wordOf_markerBytes (by omega),
      if_neg (by omega)]

theorem roundKeys_extended {key : List Byte} (h : key.length = 16) : roundKeys (key ++ markerBytes) = roundKeys key := by
  have hpack : pack (key ++ markerBytes) = pack key :=
    List.map_congr_left fun _ hj => packWord_extended h (List.mem_range.1 hj)
  rw [roundKeys, hpack, roundKeys]

theorem bce_of_bcKey_ok {s t : State} {a alen : Nat} (h : exec (.bcKey a alen) s = .next t) (hcode : t.code = 0x00) :
    t.bce = { rk := roundKeys (memReadBytes s.dmem a alen), valid := true } := by
  obtain ⟨-, -, rfl⟩ := exec_of_code_ok h hcode
  rw [succeed_effectOf_bcKey]

/-- Settles O37: `BC.KEY` writes the expansion of the bytes it reads; the extension packs to the same eight words. -/
theorem keyScheduleIsAFunctionOfTheKeyBytes : Obligations.KeyScheduleIsAFunctionOfTheKeyBytes := by
  refine ⟨fun s s' t t' a a' alen h h' hcode hcode' hkey => ?_, fun key hlen => ?_⟩
  · rw [bce_of_bcKey_ok h hcode, bce_of_bcKey_ok h' hcode', hkey]
  · rw [List.append_assoc]
    exact roundKeys_extended hlen

/-! ### BC.DEC after BC.ENC -/

theorem wf_of_exec_ok {i : Instr} {s t : State} (hm : Memory.wf s.dmem = true) (h : exec i s = .next t)
    (hcode : t.code = 0x00) : Memory.wf t.dmem = true := by
  obtain ⟨-, -, rfl⟩ := exec_of_code_ok h hcode
  rw [State.succeed_dmem]
  exact wf_effectOf i hm

/-- Settles O40: `BC.DEC` reads the block that `BC.ENC` stored, with the same round keys. -/
theorem decryptingAnEncryptedBlockRestoresIt : Obligations.DecryptingAnEncryptedBlockRestoresIt := by
  intro s t a b d hm h hcode hd
  obtain ⟨ha, hadm, -⟩ := exec_of_code_ok h hcode
  obtain ⟨hv, hsrc, hdst⟩ := admits_bcEnc.1 hadm
  obtain ⟨t', ht', hstored, -, hsame⟩ := bcEncCompletes s a b ha hv hsrc hdst hm
  obtain rfl : t = t' := Host.Outcome.next.inj (h.symm.trans ht')
  have hregs : t.abort = s.abort ∧ t.bce = s.bce ∧ t.cfg = s.cfg := by
    rw [hsame]
    exact ⟨rfl, rfl, rfl⟩
  obtain ⟨habort, hbce, hcfg⟩ := hregs
  obtain ⟨u, hu, hrestored, -, hsame'⟩ := bcDecCompletes t b d (habort ▸ ha) (hbce ▸ hv) (hcfg ▸ hdst) (hcfg ▸ hd)
    (wf_of_exec_ok hm h hcode)
  refine ⟨u, hu, by rw [hsame'], ?_⟩
  rw [hrestored, hstored, quadOfBytes_quadBytes, hbce, decBlock_encBlock,
    quadBytes_quadOfBytes _ (memReadBytes_length _ _ _)]

end Sys2Proof.Machine

/-! The stream cipher: the counter update as one 256-bit sum, the formulas of the reference set, extraction and IV setup
(spec/43_stream_state.md), and the keystream of a session (spec/44_stream_combine.md R125 to R127). -/

namespace Sys2Proof.Machine

/-! ### The counter update as one sum -/

/-- One lane loses nothing: what leaves it is what entered. -/
theorem counterLane_add_sum (c a : Word) (b : Bool) :
    (counterLane .add c a b).1.toNat + 2 ^ 32 * (counterLane .add c a b).2.toNat = c.toNat + a.toNat + b.toNat := by
  rw [counterLane_add_fst, counterLane_add_snd]
  exact Nat.mod_add_div _ _

theorem counterLane_sub_sum (c a : Word) (b : Bool) :
    (counterLane .sub c a b).1.toNat + a.toNat + b.toNat = c.toNat + 2 ^ 32 * (counterLane .sub c a b).2.toNat := by
  have hdiff := counterLane_sub_fst c a b
  have hborrow := counterLane_sub_snd c a b
  have hb : b.toNat ≤ 1 := Bool.toNat_le b
  split_ifs at hborrow <;> omega

/-- Lane sums with a bit threaded through them, each times its power of `2^32`, are one sum of 256-bit numbers. -/
theorem lanesValue_sum {v w a : Vector Word 8} {bit : Fin 9 → Bool}
    (h : ∀ j : Fin 8, v[j].toNat + 2 ^ 32 * (bit j.succ).toNat = w[j].toNat + a[j].toNat + (bit j.castSucc).toNat) :
    lanesValue v + 2 ^ 256 * (bit 8).toNat = lanesValue w + lanesValue a + (bit 0).toNat := by
  have h0 : v[0].toNat + 2 ^ 32 * (bit 1).toNat = w[0].toNat + a[0].toNat + (bit 0).toNat := h 0
  have h1 : v[1].toNat + 2 ^ 32 * (bit 2).toNat = w[1].toNat + a[1].toNat + (bit 1).toNat := h 1
  have h2 : v[2].toNat + 2 ^ 32 * (bit 3).toNat = w[2].toNat + a[2].toNat + (bit 2).toNat := h 2
  have h3 : v[3].toNat + 2 ^ 32 * (bit 4).toNat = w[3].toNat + a[3].toNat + (bit 3).toNat := h 3
  have h4 : v[4].toNat + 2 ^ 32 * (bit 5).toNat = w[4].toNat + a[4].toNat + (bit 4).toNat := h 4
  have h5 : v[5].toNat + 2 ^ 32 * (bit 6).toNat = w[5].toNat + a[5].toNat + (bit 5).toNat := h 5
  have h6 : v[6].toNat + 2 ^ 32 * (bit 7).toNat = w[6].toNat + a[6].toNat + (bit 6).toNat := h 6
  have h7 : v[7].toNat + 2 ^ 32 * (bit 8).toNat = w[7].toNat + a[7].toNat + (bit 7).toNat := h 7
  unfold lanesValue
  omega

/-- Settles O42: the lanes of R112 in both modes; a difference is the same sum read from the result to the operand. -/
theorem counterUpdateIsA256BitSum : Obligations.CounterUpdateIsA256BitSum := by
  intro a ctr carry
  refine ⟨?add, ?sub⟩
  case add =>
    obtain ⟨bit, rfl, hlast, hlane⟩ := counterUpdate_threads .add a ctr carry
    have hsum (j : Fin 8) := counterLane_add_sum ctr[j] a[j] (bit j.castSucc)
    simp only [hlane] at hsum
    dsimp only
    rw [← hlast, lanesValue_sum hsum]
  case sub =>
    obtain ⟨bit, rfl, hlast, hlane⟩ := counterUpdate_threads .sub a ctr carry
    have hsum (j : Fin 8) := counterLane_sub_sum ctr[j] a[j] (bit j.castSucc)
    simp only [hlane] at hsum
    dsimp only
    rw [← hlast, ← lanesValue_sum fun j => (hsum j).symm]

/-! ### The formulas of the reference set -/

/-- Settles O44: lane by lane, and the four words of `KSMIX`. -/
theorem stateAndKeystreamFormulasOfTheReferenceSet : Obligations.StateAndKeystreamFormulasOfTheReferenceSet := by
  refine ⟨fun g j => ?_, fun cfg x hscf => ?_⟩
  · fin_cases j <;> rfl
  · rw [ksMix, hscf]
    rfl

/-- Settles O45: the formulas of `KEYMIX` evaluated over the key words. -/
theorem keyMixMatchesTheFormulas : Obligations.KeyMixMatchesTheFormulas := by
  intro cfg key e hscf
  rw [keyMix, hscf]
  exact ⟨rfl, rfl, rfl⟩

/-- The XOR step of `IVSETUP` in `SCF_PUB`: counter `j` takes mixing word `j mod 4`. -/
theorem ivMixIn_scfPub {cfg : Config} (hscf : cfg.scf = scfPub) (iv : List Byte) (e : Sce) (j : Fin 8) :
    (ivMixIn cfg iv e).c[j] = e.c[j] ^^^ (evalExprs scfPub.ivMix (ivWords iv))[j.val % 4]'(Nat.mod_lt _ (by decide)) := by
  obtain ⟨dmemBytes, ctrMode, scf⟩ := cfg
  obtain rfl : scf = scfPub := hscf
  fin_cases j <;> rfl

/-- Settles O46: the XOR step counter by counter, then the four `NEXTSTATE` of `IVSETUP`. -/
theorem ivSetupMixesHalfWords : Obligations.IvSetupMixesHalfWords := by
  intro cfg iv e hscf
  have hc : (ivMixIn cfg iv e).c = Vector.ofFn fun j : Fin 8 => e.c[j] ^^^
      (evalExprs scfPub.ivMix (ivWords iv))[j.val % 4]'(Nat.mod_lt _ (by decide)) := by
    ext1 j hj
    rw [Vector.getElem_ofFn]
    exact ivMixIn_scfPub hscf iv e ⟨j, hj⟩
  have hmix : ivMixIn cfg iv e = { e with c := (ivMixIn cfg iv e).c } := rfl
  rw [ivSetup, nextState4_eq_advances, hmix, hc]
  rfl

/-! ### Extraction -/

theorem quadBytes_getD (q : Quad) (i k : Fin 4) :
    (quadBytes q).getD (4 * i.val + k.val) 0 = (#v[q.r0, q.r1, q.r2, q.r3][i]).extractLsb' (8 * k.val) 8 := by
  fin_cases i <;> fin_cases k <;> rfl

/-- Settles O48: byte `4i + k` of the buffer is byte `k` of keystream word `i`. -/
theorem extractYieldsSixteenBytes : Obligations.ExtractYieldsSixteenBytes := by
  intro cfg e
  refine ⟨rfl, rfl, rfl, rfl, rfl, fun i k => ?_⟩
  rw [← quadBytes_getD]
  exact Vector.getElem_ofFn _

/-! ### SC.INIT -/

/-- Settles O49: both commands pass or fail the same check, and read the same IV. -/
theorem absentIvIsTheZeroIv : Obligations.AbsentIvIsTheZeroIv := by
  intro s a b b' hkey hiv hiv' hzero
  cases ha : s.abort with
  | true => rw [exec_eq_runCommand, exec_eq_runCommand, runCommand_aborted ha, runCommand_aborted ha]
  | false =>
    rw [exec_of_admits ha (admits_scInit.2 ⟨hkey, hiv', rfl, .inl rfl⟩),
      exec_of_admits ha (admits_scInit.2 ⟨hkey, hiv, rfl, .inr rfl⟩), effectOf, effectOf]
    have hread : ivBytes s.dmem b' 0 = ivBytes s.dmem b 8 := hzero.symm
    rw [hread]

theorem sce_of_scInit_ok {s t : State} {a alen b blen : Nat} (h : exec (.scInit a alen b blen) s = .next t)
    (hcode : t.code = 0x00) :
    t.cfg = s.cfg ∧ t.sce = initSession s.cfg (memReadBytes s.dmem a 16) (ivBytes s.dmem b blen) s.sce := by
  obtain ⟨-, -, rfl⟩ := exec_of_code_ok h hcode
  exact ⟨rfl, by rw [State.succeed_sce, effectOf]⟩

theorem ivBytes_congr {m m' : List Host.Cell} {b b' blen : Nat} (h : memReadBytes m b blen = memReadBytes m' b' blen) :
    ivBytes m b blen = ivBytes m' b' blen := by
  unfold ivBytes
  split
  · next h8 => exact h8 ▸ h
  · rfl

/-- Settles O50: the two sessions start from stream states that give the same keystream. -/
theorem keystreamIsAFunctionOfKeyAndIv : Obligations.KeystreamIsAFunctionOfKeyAndIv := by
  intro s s' t t' a a' b b' blen hcfg h h' hcode hcode' hkey hiv
  obtain ⟨htcfg, hsce⟩ := sce_of_scInit_ok h hcode
  obtain ⟨htcfg', hsce'⟩ := sce_of_scInit_ok h' hcode'
  have hstream : t.sce.StreamEq t'.sce := by
    rw [hsce, hsce', ← hcfg, ← hkey, ← ivBytes_congr hiv]
    exact streamEq_initSession _ _ _ _ _
  refine ⟨hstream.regs.x, hstream.regs.c, hstream.regs.carry, fun p => ?_⟩
  rw [htcfg, htcfg', ← hcfg]
  exact keystreamByte_congr _ hstream p

/-! ### The keystream of a session -/

theorem streamAfter_succ (cfg : Config) (e : Sce) (n : Nat) :
    streamAfter cfg e (n + 1) = advance (refill cfg (streamAfter cfg e n)) := streamAfter_add cfg e n 1

theorem refill_of_empty (cfg : Config) {e : Sce} (h : e.ksPos = 16) : refill cfg e = extract cfg e := if_pos h

theorem refill_of_pending (cfg : Config) {e : Sce} (h : e.ksPos ≠ 16) : refill cfg e = e := if_neg h

/-- With nothing pending at first, byte `n` is taken from the chunk of extraction `n div 16` at position `n mod 16`. -/
theorem refill_streamAfter_of_empty (cfg : Config) {e : Sce} (h : e.ksPos = 16) (n : Nat) :
    refill cfg (streamAfter cfg e n) = { extractions cfg e (n / 16 + 1) with ksPos := n % 16 } := by
  induction n with
  | zero => exact refill_of_empty cfg h
  | succ n ih =>
    rw [streamAfter_succ, ih]
    by_cases hlast : n % 16 = 15
    · rw [refill_of_empty cfg (by simp [hlast]), show (n + 1) / 16 = n / 16 + 1 by omega, show (n + 1) % 16 = 0 by omega]
      rfl
    · rw [refill_of_pending cfg (by simp [hlast]), show (n + 1) / 16 = n / 16 by omega,
        show (n + 1) % 16 = n % 16 + 1 by omega]
      rfl

/-- Settles O51: the byte at position `n mod 16` is inside the buffer. -/
theorem keystreamByteNumbering : Obligations.KeystreamByteNumbering := by
  intro cfg e n h
  have hlt : n % 16 < 16 := Nat.mod_lt _ (by decide)
  rw [keystreamByte, refill_streamAfter_of_empty cfg h, ksByte]
  simp [hlt]

/-- Pending bytes are taken without an extraction. -/
theorem streamAfter_of_pending (cfg : Config) (e : Sce) {n : Nat} (h : e.ksPos + n ≤ 16) :
    streamAfter cfg e n = { e with ksPos := e.ksPos + n } := by
  induction n with
  | zero => rfl
  | succ n ih =>
    rw [streamAfter_succ, ih (by omega), refill_of_pending cfg (show e.ksPos + n ≠ 16 by omega)]
    rfl

theorem sameRegisters_extractions (cfg : Config) {e f : Sce} (h : e.SameRegisters f) (m : Nat) :
    (extractions cfg e m).SameRegisters (advances cfg f m) := by
  induction m with
  | zero => exact h
  | succ m ih =>
    have hnext := sameRegisters_nextState cfg ih
    exact ⟨hnext.x, hnext.c, hnext.carry⟩

/-- With nothing pending, `n + 1` bytes take `n div 16 + 1` extractions. -/
theorem streamAfter_succ_of_empty (cfg : Config) {e : Sce} (h : e.ksPos = 16) (n : Nat) :
    streamAfter cfg e (n + 1) = { extractions cfg e (n / 16 + 1) with ksPos := n % 16 + 1 } := by
  rw [streamAfter_succ, refill_streamAfter_of_empty cfg h]
  rfl

/-- Settles O52: the pending bytes go first; the bytes after them begin with nothing pending. -/
theorem extractionsAreLazy : Obligations.ExtractionsAreLazy := by
  intro cfg e n hpos
  dsimp only
  by_cases hn : n ≤ 16 - e.ksPos
  · rw [streamAfter_of_pending cfg e (by omega), if_pos hn, show (n - (16 - e.ksPos) + 15) / 16 = 0 by omega]
    exact ⟨rfl, rfl, rfl, rfl⟩
  · obtain ⟨k, rfl⟩ : ∃ k, n = 16 - e.ksPos + (k + 1) := ⟨n - (16 - e.ksPos) - 1, by omega⟩
    have hempty : streamAfter cfg e (16 - e.ksPos) = { e with ksPos := 16 } := by
      rw [streamAfter_of_pending cfg e (by omega), show e.ksPos + (16 - e.ksPos) = 16 by omega]
    rw [streamAfter_add, hempty, streamAfter_succ_of_empty cfg rfl, if_neg hn, Nat.add_sub_cancel_left,
      show (k + 1 + 15) / 16 = k / 16 + 1 by omega]
    have hregs := sameRegisters_extractions cfg (e := { e with ksPos := 16 }) (f := e) ⟨rfl, rfl, rfl⟩ (k / 16 + 1)
    refine ⟨hregs.x, hregs.c, hregs.carry, ?_⟩
    split_ifs <;> dsimp only <;> omega

/-! ### SC.XOR over pieces, and twice -/

/-- Settles O53: the loop over the whole is the loop over the first piece and then over the second. -/
theorem cutPointsDoNotMatter : Obligations.CutPointsDoNotMatter := by
  intro s a b n k ha hv hsrc hdst hoverlap
  set t := (effectOf (.scXor a n b n) s).succeed
  have ht : exec (.scXor a n b n) s = .next t :=
    exec_of_admits ha (admits_scXor.2 ⟨hv, by omega, by omega, le_rfl, by omega⟩)
  have hvalid : t.sce.valid = true := by
    simp [t, effectOf, xorLoop_fst, streamAfter_valid, hv]
  refine ⟨t, _, ht, exec_of_admits (i := .scXor (a + n) k (b + n) k) (s := t) ha
    (admits_scXor.2 ⟨hvalid, ?_, ?_, le_rfl, by omega⟩), ?_, rfl⟩
  · change a + n + k ≤ s.cfg.dmemBytes
    omega
  · change b + n + k ≤ s.cfg.dmemBytes
    omega
  · rw [exec_of_admits ha (admits_scXor.2 ⟨hv, hsrc, hdst, le_rfl, by omega⟩)]
    simp only [t, effectOf, State.combine, State.succeed, xorLoop_add]

/-- The bytes that an admitted `SC.XOR` stores. -/
theorem memReadBytes_scXor_ok {s t : State} {a b n : Nat} (hm : Memory.wf s.dmem = true)
    (h : exec (.scXor a n b n) s = .next t) (hcode : t.code = 0x00) {p : Nat} (hp : p < n) :
    memRead t.dmem (b + p) = memRead s.dmem (a + p) ^^^ keystreamByte s.cfg s.sce p := by
  obtain ⟨-, hadm, rfl⟩ := exec_of_code_ok h hcode
  obtain ⟨-, -, -, -, hoverlap⟩ := admits_scXor.1 hadm
  rw [State.succeed_dmem, effectOf, State.combine_dmem]
  exact memRead_xorLoop_inside _ _ _ _ hm n (by omega) hp

theorem memRead_of_memReadBytes_eq {m m' : List Host.Cell} {a a' n : Nat} (h : memReadBytes m a n = memReadBytes m' a' n)
    {p : Nat} (hp : p < n) : memRead m (a + p) = memRead m' (a' + p) := by
  have hget := congrArg (·[p]?) h
  simpa [memReadBytes_getElem? _ _ _ _ hp] using hget

/-- Settles O54: the same keystream byte twice. -/
theorem combineIsItsOwnInverse : Obligations.CombineIsItsOwnInverse := by
  intro s s' t t' a b a' b' n hcfg hsce hm hm' h h' hcode hcode' hread
  apply List.ext_getElem?
  intro p
  by_cases hp : p < n
  · rw [memReadBytes_getElem? _ _ _ _ hp, memReadBytes_getElem? _ _ _ _ hp, memReadBytes_scXor_ok hm' h' hcode' hp,
      memRead_of_memReadBytes_eq hread hp, memReadBytes_scXor_ok hm h hcode hp, hcfg, hsce, BitVec.xor_assoc,
      BitVec.xor_self, BitVec.xor_zero]
  · rw [List.getElem?_eq_none (by rw [memReadBytes_length]; omega),
      List.getElem?_eq_none (by rw [memReadBytes_length]; omega)]

end Sys2Proof.Machine

/-! Hex text (spec/45_host_wrapper.md R142, R143). -/

namespace Sys2Proof.Machine

/-! ### Hex text -/

theorem hexPair_hexDigit (h l : BitVec 4) : hexPair (hexDigit h) (hexDigit l) = some (h ++ l) := by
  simp only [hexPair, hexValue_hexDigit]

theorem nibbles_append (v : Byte) : v.extractLsb' 4 4 ++ v.extractLsb' 0 4 = v := by
  revert v
  decide

theorem hexDec_hexEnc (bs : List Byte) : hexDec (hexEnc bs) = some bs := by
  induction bs with
  | nil => rfl
  | cons v rest ih => rw [hexEnc, hexDec, hexPair_hexDigit, ih, nibbles_append]

theorem hexEnc_length (bs : List Byte) : (hexEnc bs).length = 2 * bs.length := by
  induction bs with
  | nil => rfl
  | cons v rest ih =>
    simp only [hexEnc, List.length_cons, ih]
    omega

/-- The lowercase hex digits (R142). -/
def hexDigits : List Char := ['0', '1', '2', '3', '4', '5', '6', '7', '8', '9', 'a', 'b', 'c', 'd', 'e', 'f']

theorem some_hexDigit (d : BitVec 4) : some (hexDigit d) = hexDigits[d.toNat]? := by
  revert d
  decide

theorem hexDigits_of_byte (v : Byte) : some (hexDigit (v.extractLsb' 4 4)) = hexDigits[v.toNat / 16]? ∧
    some (hexDigit (v.extractLsb' 0 4)) = hexDigits[v.toNat % 16]? := by
  have hhigh : (v.extractLsb' 4 4).toNat = v.toNat / 16 := by
    rw [BitVec.extractLsb'_toNat, Nat.shiftRight_eq_div_pow]
    omega
  have hlow : (v.extractLsb' 0 4).toNat = v.toNat % 16 := by
    rw [BitVec.extractLsb'_toNat, Nat.shiftRight_zero]
  rw [some_hexDigit, some_hexDigit, hhigh, hlow]
  exact ⟨rfl, rfl⟩

theorem hexEnc_getElem? (bs : List Byte) {i : Nat} (h : i < bs.length) :
    (hexEnc bs)[2 * i]? = hexDigits[(bs.getD i 0).toNat / 16]? ∧
    (hexEnc bs)[2 * i + 1]? = hexDigits[(bs.getD i 0).toNat % 16]? := by
  induction bs generalizing i with
  | nil => exact absurd h (Nat.not_lt_zero i)
  | cons v rest ih =>
    cases i with
    | zero => exact hexDigits_of_byte v
    | succ i => exact ih (Nat.lt_of_succ_lt_succ h)

theorem hexPair_eq_none_iff (a b : Char) : hexPair a b = none ↔ hexValue a = none ∨ hexValue b = none := by
  unfold hexPair
  cases hexValue a <;> cases hexValue b <;> simp

theorem hexDec_pair (a b : Char) (rest : List Char) :
    hexDec (a :: b :: rest) = (hexPair a b).bind fun v => (hexDec rest).map (v :: ·) := by
  rw [hexDec]
  cases hexPair a b <;> cases hexDec rest <;> rfl

theorem hexDec_eq_none_iff (text : List Char) :
    hexDec text = none ↔ (text.length % 2 = 1 ∨ ∃ c ∈ text, hexValue c = none) := by
  induction text using List.twoStepInduction with
  | nil => simp [hexDec]
  | singleton a => simp [hexDec]
  | cons_cons a b rest ih _ =>
    have hlen : (a :: b :: rest).length % 2 = rest.length % 2 := by
      simp only [List.length_cons]
      omega
    have hfail : hexDec (a :: b :: rest) = none ↔ hexPair a b = none ∨ hexDec rest = none := by
      rw [hexDec_pair]
      cases hexPair a b <;> simp
    rw [hfail, hexPair_eq_none_iff, ih, hlen]
    simp only [List.mem_cons, exists_eq_or_imp]
    rw [or_left_comm, or_assoc]

theorem hexDec_eq_some {text : List Char} {bs : List Byte} (h : hexDec text = some bs) : text.length = 2 * bs.length ∧
    ∀ i, i < bs.length → hexPair (text.getD (2 * i) ' ') (text.getD (2 * i + 1) ' ') = bs[i]? := by
  induction text using List.twoStepInduction generalizing bs with
  | nil =>
    cases h
    exact ⟨rfl, nofun⟩
  | singleton a => cases h
  | cons_cons a b rest ih _ =>
    rw [hexDec_pair] at h
    obtain ⟨v, hv, hmap⟩ := Option.bind_eq_some_iff.1 h
    obtain ⟨vs, hvs, rfl⟩ := Option.map_eq_some_iff.1 hmap
    obtain ⟨hlen, hpairs⟩ := ih hvs
    refine ⟨by simp only [List.length_cons, hlen]; omega, fun i hi => ?_⟩
    cases i with
    | zero => exact hv
    | succ i => exact hpairs i (Nat.lt_of_succ_lt_succ hi)

/-- Settles O55: encoding byte by byte, decoding pair by pair. -/
theorem hexDecodingInvertsEncodingAndRefusesMalformedText :
    Obligations.HexDecodingInvertsEncodingAndRefusesMalformedText :=
  ⟨fun bs => ⟨hexDec_hexEnc bs, hexEnc_length bs, fun _ hi => hexEnc_getElem? bs hi⟩,
    fun text => ⟨hexDec_eq_none_iff text, fun _ h => hexDec_eq_some h⟩⟩

end Sys2Proof.Machine

/-! The host procedures of spec/45_host_wrapper.md (R146 to R152): what each host move answers, and a setup that
stops with `InvalidKeySize`. -/

namespace Sys2Proof.Machine

/-! ### One procedure after another -/

section
variable {α β : Type} {p : Proc α} {s t u : State} {v : α}

theorem Proc.andThen_ok (h : p s = (.ok v, t)) (k : α → Proc β) : p.andThen k s = k v t := by
  rw [Proc.andThen, h]

theorem Proc.andThen_error {e : HostError} (h : p s = (.error e, t)) (k : α → Proc β) :
    p.andThen k s = (.error e, t) := by
  rw [Proc.andThen, h]

theorem Proc.finally_ok {final : Proc Unit} (h : p s = (.ok v, t)) (hfinal : final t = (.ok (), u)) :
    p.finally final s = (.ok v, u) := by
  rw [Proc.finally, h]
  exact Proc.andThen_ok hfinal _

end

theorem Proc.forPieces_cons {act : List Byte → Proc (List Byte)} {piece out more : List Byte} {rest : List (List Byte)}
    {s t u : State} (h : act piece s = (.ok out, t)) (hrest : Proc.forPieces act rest t = (.ok more, u)) :
    Proc.forPieces act (piece :: rest) s = (.ok (out ++ more), u) := by
  rw [Proc.forPieces, Proc.andThen_ok h, Proc.andThen_ok hrest, Proc.done]

/-! ### Host moves -/

theorem Proc.write_ok {s : State} {a : Nat} {bs : List Byte} (h : a + bs.length ≤ s.cfg.dmemBytes) :
    Proc.write a bs s = (.ok (), { s with dmem := memWriteBytes s.dmem a bs, reply := .none }) := by
  rw [Proc.write, Proc.move, serve_writeMem h]

theorem Proc.read_ok {s : State} {a n : Nat} (h : a + n ≤ s.cfg.dmemBytes) :
    Proc.read a n s = (.ok (memReadBytes s.dmem a n), { s with reply := .data (memReadBytes s.dmem a n) }) := by
  have hmove : Proc.move (.readMem a n) s = (.ok (), { s with reply := .data (memReadBytes s.dmem a n) }) := by
    rw [Proc.move, serve_readMem h]
  rw [Proc.read, Proc.andThen_ok hmove]

theorem statusWord_setWidth (s : State) : s.statusWord.setWidth 8 = s.code := by
  rw [BitVec.setWidth_eq_extractLsb' (by decide), statusWord_code]

/-- Issuing a command gives its code: nothing for `OK`, else the host error of R150. -/
theorem Proc.command_of_exec {i j : Instr} {s t : State} (hdec : decode (encode i) = .ok j) (h : exec j s = .next t) :
    Proc.command i s =
      (if t.code = 0x00 then .ok () else .error (.core t.code), { t with reply := .status t.statusWord }) := by
  have hmove : Proc.move (.command (encode i)) s = (.ok (), { t with reply := .status t.statusWord }) := by
    rw [Proc.move, serve_command_eq ((runDescriptor_of_decode_ok hdec s).trans h)]
  rw [Proc.command, Proc.andThen_ok hmove]
  simp only [statusWord_setWidth, Code.toByte]
  split_ifs <;> rfl

theorem Proc.command_ok {i : Instr} {s t : State} (hi : i.wellFormed = true) (h : exec i s = .next t)
    (hcode : t.code = 0x00) : Proc.command i s = (.ok (), { t with reply := .status t.statusWord }) := by
  rw [Proc.command_of_exec (decode_encode hi) h, if_pos hcode]

/-! ### An illegal key size -/

/-- The encoder keeps an operand modulo `2^32`. -/
theorem decode_encode_bcKey (a alen : Nat) :
    decode (encode (.bcKey a alen)) = .ok (.bcKey (a % 2 ^ 32) (alen % 2 ^ 32)) := by
  rw [decode_of_rsv_zero (rsv_encode _)]
  simp [decodeOp, encode, opcode, Cmd5.op, requireZero_ok]

theorem exec_bcKey_illegal {s : State} {a alen : Nat} (ha : s.abort = false) (hrange : a + alen ≤ s.cfg.dmemBytes)
    (hillegal : alen ≠ 16 ∧ alen ≠ 24 ∧ alen ≠ 32) :
    exec (.bcKey a alen) s = .next (s.raiseFail .invalidKeySize) := by
  rw [exec_bcKey_of_not_aborted ha, if_neg (by omega), if_pos hillegal]

theorem dmemBytes_le {s : State} (h : s.Inv) : s.cfg.dmemBytes ≤ 2 ^ 32 := by
  have hwf := h.config
  simp only [Config.wf, Bool.and_eq_true, decide_eq_true_eq] at hwf
  exact hwf.2

/-- A key of `2^32` bytes reaches `BC.KEY` as the length 0, which is illegal as well. -/
theorem blockSetup_illegal {s : State} {key : List Byte} (hs : s.Usable) (hfits : key.length ≤ s.cfg.dmemBytes)
    (hillegal : key.length ≠ 16 ∧ key.length ≠ 24 ∧ key.length ≠ 32) :
    ∃ t, blockSetup key s = (.error (.core 0x01), t) ∧ t.bce = s.bce ∧ t.abort = false := by
  have hsize := dmemBytes_le hs.inv
  have hwrite := Proc.write_ok (s := s) (a := keyBuf) (bs := key) (by rw [keyBuf]; omega)
  set s₁ : State := { s with dmem := memWriteBytes s.dmem keyBuf key, reply := .none }
  have hrange : keyBuf % 2 ^ 32 + key.length % 2 ^ 32 ≤ s₁.cfg.dmemBytes := by
    change keyBuf % 2 ^ 32 + key.length % 2 ^ 32 ≤ s.cfg.dmemBytes
    rw [keyBuf]
    omega
  have hexec := exec_bcKey_illegal (s := s₁) hs.notAborted hrange (by omega)
  set t := s₁.raiseFail .invalidKeySize
  have hcode : t.code = 0x01 := rfl
  refine ⟨{ t with reply := .status t.statusWord }, ?_, rfl, hs.notAborted⟩
  rw [blockSetup, Proc.andThen_ok hwrite, Proc.command_of_exec (decode_encode_bcKey _ _) hexec, hcode, if_neg (by decide)]

/-- Settles O57: the setup stops, and with it either procedure. -/
theorem illegalKeySizeStopsTheProcedure : Obligations.IllegalKeySizeStopsTheProcedure := by
  intro s key plaintext text hs hfits hillegal
  obtain ⟨t, hsetup, hbce, habort⟩ := blockSetup_illegal hs hfits hillegal
  exact ⟨t, Proc.andThen_error hsetup _, Proc.andThen_error hsetup _, hbce, habort⟩

end Sys2Proof.Machine

/-! The two round trips of the host procedures (spec/45_host_wrapper.md R146 to R152). -/

namespace Sys2Proof.Machine

/-! ### Pieces of a message -/

section
variable {n : Nat}

theorem flatten_piecesFuel (hn : 0 < n) {fuel : Nat} {bs : List Byte} (h : bs.length ≤ fuel) :
    (piecesFuel n fuel bs).flatten = bs := by
  induction fuel generalizing bs with
  | zero => rw [List.length_eq_zero_iff.1 (Nat.le_zero.1 h)]; rfl
  | succ fuel ih =>
    rw [piecesFuel]
    split_ifs with hnil
    · rw [hnil]
      rfl
    · have hpos : 0 < bs.length := List.length_pos_iff.2 hnil
      rw [List.flatten_cons, ih (by rw [List.length_drop]; omega), List.take_append_drop]

theorem flatten_pieces (hn : 0 < n) (bs : List Byte) : (pieces n bs).flatten = bs := flatten_piecesFuel hn le_rfl

theorem length_le_of_mem_piecesFuel {fuel : Nat} {bs p : List Byte} (h : p ∈ piecesFuel n fuel bs) : p.length ≤ n := by
  induction fuel generalizing bs with
  | zero => cases h
  | succ fuel ih =>
    rw [piecesFuel] at h
    split_ifs at h
    · cases h
    · obtain rfl | h := List.mem_cons.1 h
      · exact List.length_take_le n bs
      · exact ih h

/-- Pieces of full length, cut again, are the same pieces. -/
theorem piecesFuel_flatten (hn : 0 < n) {ps : List (List Byte)} (hfull : ∀ p ∈ ps, p.length = n) {fuel : Nat}
    (h : ps.flatten.length ≤ fuel) : piecesFuel n fuel ps.flatten = ps := by
  induction ps generalizing fuel with
  | nil => cases fuel <;> rfl
  | cons p ps ih =>
    obtain ⟨hp, hps⟩ := List.forall_mem_cons.1 hfull
    rw [List.flatten_cons] at h ⊢
    rw [List.length_append, hp] at h
    obtain ⟨fuel, rfl⟩ : ∃ k, fuel = k + 1 := ⟨fuel - 1, by omega⟩
    have hne : p ++ ps.flatten ≠ [] := fun hnil => by simp_all
    rw [piecesFuel, if_neg hne, List.take_left' hp, List.drop_left' hp, ih hps (by omega)]

theorem pieces_flatten (hn : 0 < n) {ps : List (List Byte)} (hfull : ∀ p ∈ ps, p.length = n) :
    pieces n ps.flatten = ps := piecesFuel_flatten hn hfull le_rfl

/-- A string of whole blocks is cut into full pieces only. -/
theorem length_of_mem_piecesFuel {fuel : Nat} {bs p : List Byte} (hblocks : n ∣ bs.length)
    (h : p ∈ piecesFuel n fuel bs) : p.length = n := by
  induction fuel generalizing bs with
  | zero => cases h
  | succ fuel ih =>
    rw [piecesFuel] at h
    split_ifs at h with hnil
    · cases h
    · have hle : n ≤ bs.length := Nat.le_of_dvd (List.length_pos_iff.2 hnil) hblocks
      obtain rfl | h := List.mem_cons.1 h
      · rw [List.length_take, Nat.min_eq_left hle]
      · exact ih (by rw [List.length_drop]; exact Nat.dvd_sub hblocks (dvd_refl n)) h

theorem length_of_mem_pieces {bs p : List Byte} (hblocks : n ∣ bs.length) (h : p ∈ pieces n bs) : p.length = n :=
  length_of_mem_piecesFuel hblocks h

theorem length_le_of_mem_pieces {bs p : List Byte} (h : p ∈ pieces n bs) : p.length ≤ n := length_le_of_mem_piecesFuel h

theorem length_flatten_of_full {ps : List (List Byte)} (hfull : ∀ p ∈ ps, p.length = n) :
    ps.flatten.length = ps.length * n := by
  rw [List.length_flatten, List.map_congr_left hfull, List.map_const', List.sum_replicate, smul_eq_mul]

end

/-! ### A machine on which a procedure runs -/

/-- No abort recorded, room for the layout of R151, memory in canonical form. -/
structure State.Fit (s : State) : Prop where
  notAborted : s.abort = false
  room : 0x300 ≤ s.cfg.dmemBytes
  canonical : Memory.wf s.dmem = true

theorem State.Usable.fit {s : State} (h : s.Usable) : s.Fit := ⟨h.notAborted, h.room, h.inv.memCanonical⟩

theorem State.Fit.withReply {s : State} (h : s.Fit) (r : Reply) : ({ s with reply := r } : State).Fit :=
  ⟨h.notAborted, h.room, h.canonical⟩

theorem State.Fit.withWrite {s : State} (h : s.Fit) (a : Nat) (bs : List Byte) :
    ({ s with dmem := memWriteBytes s.dmem a bs, reply := .none } : State).Fit :=
  ⟨h.notAborted, h.room, wf_memWriteBytes bs h.canonical a⟩

theorem cfg_of_exec {i : Instr} {s t : State} (h : exec i s = .next t) : t.cfg = s.cfg :=
  (commandsKeepTheirFrame i s t h).1

theorem State.Fit.exec {i : Instr} {s t : State} (hs : s.Fit) (h : Machine.exec i s = .next t) (hcode : t.code = 0x00) :
    t.Fit where
  notAborted := by
    obtain ⟨ha, -, rfl⟩ := exec_of_code_ok h hcode
    rw [State.succeed_abort, effectOf_abort, ha]
  room := cfg_of_exec h ▸ hs.room
  canonical := wf_of_exec_ok hs.canonical h hcode

/-- One piece of a message by way of the buffers: what `blockAction` and `streamAction` share. -/
def throughBuffers (i : Instr) (n : Nat) (piece : List Byte) : Proc (List Byte) :=
  (Proc.write inBuf piece).andThen fun _ => (Proc.command i).andThen fun _ => Proc.read outBuf n

theorem blockAction_eq (i : Instr) (block : List Byte) : blockAction i block = throughBuffers i 16 block := rfl

theorem streamAction_eq (piece : List Byte) :
    streamAction piece = throughBuffers (.scXor inBuf piece.length outBuf piece.length) piece.length piece := rfl

theorem throughBuffers_ok {i : Instr} {n : Nat} {piece : List Byte} {s t : State} (hi : i.wellFormed = true) (hs : s.Fit)
    (hpiece : piece.length ≤ 256) (hn : n ≤ 256)
    (hexec : exec i { s with dmem := memWriteBytes s.dmem inBuf piece, reply := .none } = .next t) (hcode : t.code = 0x00) :
    throughBuffers i n piece s =
      (.ok (memReadBytes t.dmem outBuf n), { t with reply := .data (memReadBytes t.dmem outBuf n) }) := by
  have hroom := hs.room
  have hroom' := ((hs.withWrite inBuf piece).exec hexec hcode).room
  have hread := Proc.read_ok (s := { t with reply := .status t.statusWord }) (a := outBuf) (n := n)
    (show outBuf + n ≤ t.cfg.dmemBytes by rw [outBuf]; omega)
  rw [throughBuffers, Proc.andThen_ok (Proc.write_ok (by rw [inBuf]; omega)),
    Proc.andThen_ok (Proc.command_ok hi hexec hcode), hread]

/-! ### The block procedures -/

/-- Fit for a procedure, and set up with a round-key set. -/
structure State.BlockReady (rk : Vector Word 132) (s : State) : Prop where
  fit : s.Fit
  key : s.bce = { rk := rk, valid := true }

/-- A block function on the 16 bytes of a block. -/
def onBytes (f : Quad → Quad) (block : List Byte) : List Byte := quadBytes (f (quadOfBytes block))

/-- What `BC.ENC` and `BC.DEC` between the two buffers do on a machine that is set up. -/
def TransformsBlocks (i : Instr) (rk : Vector Word 132) (f : Quad → Quad) : Prop :=
  i.wellFormed = true ∧ ∀ s : State, s.BlockReady rk → ∃ t, exec i s = .next t ∧ t.code = 0x00 ∧ t.bce = s.bce ∧
    memReadBytes t.dmem outBuf 16 = onBytes f (memReadBytes s.dmem inBuf 16)

theorem buffers_in_range {s : State} (h : s.Fit) : inBuf + 16 ≤ s.cfg.dmemBytes ∧ outBuf + 16 ≤ s.cfg.dmemBytes := by
  have hroom := h.room
  rw [inBuf, outBuf]
  omega

theorem bcEnc_transformsBlocks (rk : Vector Word 132) : TransformsBlocks (.bcEnc inBuf outBuf) rk (encBlock rk) := by
  refine ⟨by decide, fun s hs => ?_⟩
  obtain ⟨hsrc, hdst⟩ := buffers_in_range hs.fit
  obtain ⟨t, ht, hstored, -, hsame⟩ :=
    bcEncCompletes s inBuf outBuf hs.fit.notAborted (by rw [hs.key]) hsrc hdst hs.fit.canonical
  rw [hs.key] at hstored
  exact ⟨t, ht, by rw [hsame], by rw [hsame], hstored⟩

theorem bcDec_transformsBlocks (rk : Vector Word 132) : TransformsBlocks (.bcDec inBuf outBuf) rk (decBlock rk) := by
  refine ⟨by decide, fun s hs => ?_⟩
  obtain ⟨hsrc, hdst⟩ := buffers_in_range hs.fit
  obtain ⟨t, ht, hstored, -, hsame⟩ :=
    bcDecCompletes s inBuf outBuf hs.fit.notAborted (by rw [hs.key]) hsrc hdst hs.fit.canonical
  rw [hs.key] at hstored
  exact ⟨t, ht, by rw [hsame], by rw [hsame], hstored⟩

section
variable {i : Instr} {rk : Vector Word 132} {f : Quad → Quad}

theorem blockAction_ok (hf : TransformsBlocks i rk f) {s : State} (hs : s.BlockReady rk) {block : List Byte}
    (hlen : block.length = 16) : ∃ t, blockAction i block s = (.ok (onBytes f block), t) ∧ t.BlockReady rk := by
  obtain ⟨hi, hrun⟩ := hf
  obtain ⟨t, ht, hcode, hbce, hstored⟩ :=
    hrun { s with dmem := memWriteBytes s.dmem inBuf block, reply := .none } ⟨hs.fit.withWrite _ _, hs.key⟩
  have hblock : memReadBytes (memWriteBytes s.dmem inBuf block) inBuf 16 = block :=
    hlen ▸ memReadBytes_memWriteBytes block hs.fit.canonical inBuf
  rw [hblock] at hstored
  refine ⟨_, ?_, ((hs.fit.withWrite _ _).exec ht hcode).withReply (.data (onBytes f block)), hbce.trans hs.key⟩
  rw [blockAction_eq, throughBuffers_ok hi hs.fit (by omega) (by decide) ht hcode, hstored]

theorem forPieces_blockAction_ok (hf : TransformsBlocks i rk f) {blocks : List (List Byte)}
    (hfull : ∀ p ∈ blocks, p.length = 16) {s : State} (hs : s.BlockReady rk) :
    ∃ t, Proc.forPieces (blockAction i) blocks s = (.ok (blocks.map (onBytes f)).flatten, t) ∧ t.BlockReady rk := by
  induction blocks generalizing s with
  | nil => exact ⟨s, rfl, hs⟩
  | cons block rest ih =>
    obtain ⟨hlen, hrest⟩ := List.forall_mem_cons.1 hfull
    obtain ⟨t, ht, hready⟩ := blockAction_ok hf hs hlen
    obtain ⟨u, hu, hready'⟩ := ih hrest hready
    exact ⟨u, Proc.forPieces_cons ht hu, hready'⟩

end

/-- The clear command that ends a procedure always ends with `OK`. -/
theorem command_bcClr_ok {s : State} (hs : s.Fit) : ∃ t, Proc.command .bcClr s = (.ok (), t) :=
  ⟨_, Proc.command_ok rfl (exec_of_admits hs.notAborted admits_bcClr) rfl⟩

theorem exec_bcKey_ok {s : State} {a alen : Nat} (ha : s.abort = false) (hrange : a + alen ≤ s.cfg.dmemBytes)
    (hlen : alen = 16 ∨ alen = 24 ∨ alen = 32) : ∃ t, exec (.bcKey a alen) s = .next t ∧ t.code = 0x00 ∧
      t.bce = { rk := roundKeys (memReadBytes s.dmem a alen), valid := true } :=
  ⟨_, bcKeyCompletes s a alen ha hrange hlen, rfl, rfl⟩

theorem blockSetup_ok {s : State} (hs : s.Fit) {key : List Byte}
    (hkey : key.length = 16 ∨ key.length = 24 ∨ key.length = 32) :
    ∃ t, blockSetup key s = (.ok (), t) ∧ t.BlockReady (roundKeys key) := by
  have hroom := hs.room
  have hfits : keyBuf + key.length ≤ s.cfg.dmemBytes := by
    rw [keyBuf]
    omega
  have hwf : (Instr.bcKey keyBuf key.length).wellFormed = true := by
    simp only [Instr.wellFormed, Bool.and_eq_true, operandFits_iff, keyBuf]
    omega
  obtain ⟨t, ht, hcode, hbce⟩ := exec_bcKey_ok (hs.withWrite keyBuf key).notAborted hfits hkey
  rw [memReadBytes_memWriteBytes key hs.canonical keyBuf] at hbce
  refine ⟨_, ?_, ((hs.withWrite keyBuf key).exec ht hcode).withReply (.status t.statusWord), hbce⟩
  rw [blockSetup, Proc.andThen_ok (Proc.write_ok hfits), Proc.command_ok hwf ht hcode]

theorem dvd_length_zpad (bs : List Byte) : 16 ∣ (zpad bs).length := by
  rw [zpad_eq_append, List.length_append, List.length_replicate]
  exact Nat.dvd_of_mod_eq_zero (add_padCount_mod _)

theorem length_of_mem_pieces_zpad {bs : List Byte} : ∀ p ∈ pieces 16 (zpad bs), p.length = 16 :=
  fun _ hp => length_of_mem_pieces (dvd_length_zpad bs) hp

/-- The ciphertext of R146: the padded text block by block. -/
def blockCiphertext (rk : Vector Word 132) (plaintext : List Byte) : List Byte :=
  ((pieces 16 (zpad plaintext)).map (onBytes (encBlock rk))).flatten

theorem blockEncrypt_ok {s : State} (hs : s.Fit) {key : List Byte}
    (hkey : key.length = 16 ∨ key.length = 24 ∨ key.length = 32) (plaintext : List Byte) :
    ∃ t, blockEncrypt key plaintext s = (.ok (hexEnc (blockCiphertext (roundKeys key) plaintext)), t) := by
  obtain ⟨t, hsetup, hready⟩ := blockSetup_ok hs hkey
  obtain ⟨u, hblocks, hready'⟩ :=
    forPieces_blockAction_ok (bcEnc_transformsBlocks _) (length_of_mem_pieces_zpad (bs := plaintext)) hready
  obtain ⟨w, hclear⟩ := command_bcClr_ok hready'.fit
  refine ⟨w, ?_⟩
  rw [blockEncrypt, Proc.andThen_ok hsetup, Proc.andThen_ok (Proc.finally_ok hblocks hclear), blockCiphertext, Proc.done]

theorem blockDecrypt_ok {s : State} (hs : s.Fit) {key : List Byte}
    (hkey : key.length = 16 ∨ key.length = 24 ∨ key.length = 32) {blocks : List (List Byte)}
    (hfull : ∀ p ∈ blocks, p.length = 16) : ∃ t, blockDecrypt key (hexEnc blocks.flatten) s =
      (.ok (zstrip (blocks.map (onBytes (decBlock (roundKeys key)))).flatten), t) := by
  obtain ⟨t, hsetup, hready⟩ := blockSetup_ok hs hkey
  obtain ⟨u, hblocks, hready'⟩ := forPieces_blockAction_ok (bcDec_transformsBlocks _) hfull hready
  obtain ⟨w, hclear⟩ := command_bcClr_ok hready'.fit
  have hcipher : cipherBlocks (hexEnc blocks.flatten) = .done blocks.flatten := by
    have hwhole : blocks.flatten.length % 16 = 0 := by
      rw [length_flatten_of_full hfull, Nat.mul_mod_left]
    simp only [cipherBlocks, hexDec_hexEnc, if_pos hwhole]
  have hbody : ((cipherBlocks (hexEnc blocks.flatten)).andThen fun c =>
      Proc.forPieces (blockAction (.bcDec inBuf outBuf)) (pieces 16 c)) t =
        (.ok (blocks.map (onBytes (decBlock (roundKeys key)))).flatten, u) := by
    rw [hcipher, Proc.andThen_ok (p := Proc.done _) rfl, pieces_flatten (by decide) hfull, hblocks]
  refine ⟨w, ?_⟩
  rw [blockDecrypt, Proc.andThen_ok hsetup, Proc.andThen_ok (Proc.finally_ok hbody hclear), Proc.done]

theorem onBytes_length (f : Quad → Quad) (block : List Byte) : (onBytes f block).length = 16 := quadBytes_length _

theorem onBytes_decBlock_encBlock (rk : Vector Word 132) {block : List Byte} (h : block.length = 16) :
    onBytes (decBlock rk) (onBytes (encBlock rk) block) = block := by
  rw [onBytes, onBytes, quadOfBytes_quadBytes, decBlock_encBlock, quadBytes_quadOfBytes block h]

/-- Settles O58: the ciphertext is cut into the blocks that were encrypted, each is decrypted, and stripping the padded text
strips the text. -/
theorem blockProceduresRoundTrip : Obligations.BlockProceduresRoundTrip := by
  intro s s' key plaintext hs hs' hkey
  have hblocks := length_of_mem_pieces_zpad (bs := plaintext)
  have hcipher : ∀ p ∈ (pieces 16 (zpad plaintext)).map (onBytes (encBlock (roundKeys key))), p.length = 16 :=
    List.forall_mem_map.2 fun _ _ => onBytes_length _ _
  have hjoin : (pieces 16 (zpad plaintext)).flatten = zpad plaintext := flatten_pieces (by decide) _
  obtain ⟨t, ht⟩ := blockEncrypt_ok hs.fit hkey plaintext
  obtain ⟨t', ht'⟩ := blockDecrypt_ok hs'.fit hkey hcipher
  refine ⟨_, t, t', ht, ?length, ?decrypted⟩
  case length =>
    rw [hexEnc_length, blockCiphertext, length_flatten_of_full hcipher, List.length_map,
      ← length_flatten_of_full hblocks, hjoin]
  case decrypted =>
    have hrestore : ((pieces 16 (zpad plaintext)).map (onBytes (encBlock (roundKeys key)))).map
        (onBytes (decBlock (roundKeys key))) = pieces 16 (zpad plaintext) := by
      rw [List.map_map]
      exact (List.map_congr_left fun p hp => onBytes_decBlock_encBlock _ (hblocks p hp)).trans (List.map_id _)
    rw [blockCiphertext, ht', hrestore, hjoin, zstrip_zpad]

/-! ### The stream procedures -/

/-- The bytes of a message combined with the keystream from a stream state on (R125). -/
def onStream (cfg : Config) (e : Sce) (bs : List Byte) : List Byte := bs.mapIdx fun p v => v ^^^ keystreamByte cfg e p

section
variable (cfg : Config) (e : Sce) (bs : List Byte)

theorem onStream_length : (onStream cfg e bs).length = bs.length := List.length_mapIdx

theorem onStream_append (cs : List Byte) :
    onStream cfg e (bs ++ cs) = onStream cfg e bs ++ onStream cfg (streamAfter cfg e bs.length) cs := by
  simp only [onStream, List.mapIdx_append, ← keystreamByte_add, Nat.add_comm]

theorem onStream_onStream : onStream cfg e (onStream cfg e bs) = bs := by
  apply List.ext_getElem?
  intro p
  simp only [onStream, List.getElem?_mapIdx, Option.map_map]
  cases bs[p]? <;> simp

theorem onStream_congr {f : Sce} (h : e.StreamEq f) : onStream cfg e bs = onStream cfg f bs := by
  simp only [onStream, keystreamByte_congr cfg h]

end

/-- Fit for a procedure, with an open session. -/
structure State.StreamReady (cfg : Config) (e : Sce) (s : State) : Prop where
  fit : s.Fit
  params : s.cfg = cfg
  sce : s.sce = e
  valid : e.valid = true

theorem memReadBytes_eq_onStream {cfg : Config} {e : Sce} {m m' : List Host.Cell} {a b n : Nat}
    (h : ∀ p, p < n → memRead m' (b + p) = memRead m (a + p) ^^^ keystreamByte cfg e p) :
    memReadBytes m' b n = onStream cfg e (memReadBytes m a n) := by
  apply List.ext_getElem?
  intro p
  rw [onStream, List.getElem?_mapIdx]
  by_cases hp : p < n
  · rw [memReadBytes_getElem? _ _ _ _ hp, memReadBytes_getElem? _ _ _ _ hp, h p hp, Option.map_some]
  · rw [List.getElem?_eq_none (by rw [memReadBytes_length]; omega),
      List.getElem?_eq_none (by rw [memReadBytes_length]; omega), Option.map_none]

section
variable {cfg : Config} {e : Sce} {s : State}

theorem streamAction_ok (hs : s.StreamReady cfg e) {piece : List Byte} (hlen : piece.length ≤ 256) :
    ∃ t, streamAction piece s = (.ok (onStream cfg e piece), t) ∧ t.StreamReady cfg (streamAfter cfg e piece.length) := by
  obtain ⟨hfit, rfl, rfl, hvalid⟩ := hs
  have hroom := hfit.room
  have hfit₁ := hfit.withWrite inBuf piece
  have hranges : inBuf + piece.length ≤ s.cfg.dmemBytes ∧ outBuf + piece.length ≤ s.cfg.dmemBytes ∧
      inBuf + piece.length ≤ outBuf := by
    rw [inBuf, outBuf]
    omega
  obtain ⟨hsrc, hdst, hdisjoint⟩ := hranges
  obtain ⟨t, ht, hstored, -, hsce, hsame⟩ :=
    scXorCompletes _ inBuf piece.length outBuf piece.length hfit₁.notAborted hvalid hsrc hdst le_rfl
      (.inr (.inr (.inr hdisjoint))) hfit₁.canonical
  have hcode : t.code = 0x00 := by rw [hsame]
  have hcfg := cfg_of_exec ht
  have hout := memReadBytes_eq_onStream hstored
  rw [memReadBytes_memWriteBytes piece hfit.canonical inBuf] at hout
  have hwf : (Instr.scXor inBuf piece.length outBuf piece.length).wellFormed = true := by
    simp only [Instr.wellFormed, Bool.and_eq_true, operandFits_iff, inBuf, outBuf]
    omega
  refine ⟨{ t with reply := .data (onStream s.cfg s.sce piece) }, ?_, (hfit₁.exec ht hcode).withReply _, ?_, hsce, ?_⟩
  · rw [streamAction_eq, throughBuffers_ok hwf hfit hlen hlen ht hcode, hout]
  · exact hcfg
  · rw [streamAfter_valid, hvalid]

theorem streamPieces_ok (hs : s.StreamReady cfg e) {cuts : List (List Byte)} (hcuts : ∀ p ∈ cuts, p.length ≤ 256) :
    ∃ t, streamPieces cuts s = (.ok (onStream cfg e cuts.flatten), t) ∧ t.Fit := by
  induction cuts generalizing s e with
  | nil => exact ⟨s, rfl, hs.fit⟩
  | cons piece rest ih =>
    obtain ⟨hlen, hrest⟩ := List.forall_mem_cons.1 hcuts
    obtain ⟨t, ht, hready⟩ := streamAction_ok hs hlen
    obtain ⟨u, hu, hfit⟩ := ih hready hrest
    refine ⟨u, ?_, hfit⟩
    rw [List.flatten_cons, onStream_append]
    exact Proc.forPieces_cons ht hu

end

theorem command_scClr_ok {s : State} (hs : s.Fit) : ∃ t, Proc.command .scClr s = (.ok (), t) :=
  ⟨_, Proc.command_ok rfl (exec_of_admits hs.notAborted admits_scClr) rfl⟩

/-- The IV that `SC.INIT` uses for the IV a procedure is given (R110). -/
def usedIv (iv : List Byte) : List Byte := if iv.length = 8 then iv else List.replicate 8 0

theorem exec_scInit_ok {s : State} {a b blen : Nat} (ha : s.abort = false) (hkey : a + 16 ≤ s.cfg.dmemBytes)
    (hiv : b + blen ≤ s.cfg.dmemBytes) (hlen : blen = 0 ∨ blen = 8) :
    ∃ t, exec (.scInit a 16 b blen) s = .next t ∧ t.code = 0x00 ∧
      t.sce = initSession s.cfg (memReadBytes s.dmem a 16) (ivBytes s.dmem b blen) s.sce := by
  have h := exec_of_admits (i := .scInit a 16 b blen) ha (admits_scInit.2 ⟨hkey, hiv, rfl, hlen⟩)
  exact ⟨_, h, rfl, (sce_of_scInit_ok h rfl).2⟩

theorem streamSetup_ok {s : State} (hs : s.Fit) {key iv : List Byte} (hkey : key.length = 16)
    (hiv : iv.length = 0 ∨ iv.length = 8) :
    ∃ t, streamSetup key iv s = (.ok (), t) ∧ t.StreamReady s.cfg (initSession s.cfg key (usedIv iv) s.sce) := by
  have hroom := hs.room
  have hranges : keyBuf + key.length ≤ s.cfg.dmemBytes ∧ ivBuf + iv.length ≤ s.cfg.dmemBytes ∧
      keyBuf + key.length ≤ ivBuf := by
    rw [keyBuf, ivBuf]
    omega
  obtain ⟨hfits, hfits', hdisjoint⟩ := hranges
  have hkeyRead : memReadBytes (memWriteBytes (memWriteBytes s.dmem keyBuf key) ivBuf iv) keyBuf 16 = key := by
    rw [memReadBytes_congr (m' := memWriteBytes s.dmem keyBuf key) fun i hi =>
      memRead_memWriteBytes_other _ _ _ _ (.inl (by omega)), ← hkey]
    exact memReadBytes_memWriteBytes key hs.canonical keyBuf
  have hivRead : ivBytes (memWriteBytes (memWriteBytes s.dmem keyBuf key) ivBuf iv) ivBuf iv.length = usedIv iv := by
    unfold ivBytes usedIv
    split_ifs with h8
    · rw [← h8]
      exact memReadBytes_memWriteBytes iv (wf_memWriteBytes key hs.canonical keyBuf) ivBuf
    · rfl
  have hwf : (Instr.scInit keyBuf 16 ivBuf iv.length).wellFormed = true := by
    simp only [Instr.wellFormed, Bool.and_eq_true, operandFits_iff, keyBuf, ivBuf]
    omega
  have hfit₂ := (hs.withWrite keyBuf key).withWrite ivBuf iv
  obtain ⟨t, ht, hcode, hsce⟩ := exec_scInit_ok hfit₂.notAborted (hkey ▸ hfits) hfits' hiv
  rw [hkeyRead, hivRead] at hsce
  have hcfg := cfg_of_exec ht
  have hwrite := Proc.write_ok (s := s) hfits
  have hwrite' := Proc.write_ok (s := { s with dmem := memWriteBytes s.dmem keyBuf key, reply := .none }) hfits'
  refine ⟨{ t with reply := .status t.statusWord }, ?_, (hfit₂.exec ht hcode).withReply _, ?_, hsce, rfl⟩
  · rw [streamSetup, Proc.andThen_ok hwrite, Proc.andThen_ok hwrite', hkey, Proc.command_ok hwf ht hcode]
  · exact hcfg

theorem streamEncrypt_ok {s : State} (hs : s.Fit) {key iv : List Byte} (hkey : key.length = 16)
    (hiv : iv.length = 0 ∨ iv.length = 8) (plaintext : List Byte) : ∃ t, streamEncrypt key iv plaintext s =
      (.ok (hexEnc (onStream s.cfg (initSession s.cfg key (usedIv iv) s.sce) plaintext)), t) := by
  obtain ⟨t, hsetup, hready⟩ := streamSetup_ok hs hkey hiv
  obtain ⟨u, hpieces, hfit⟩ := streamPieces_ok hready fun p (hp : p ∈ pieces bufLen plaintext) => length_le_of_mem_pieces hp
  obtain ⟨w, hclear⟩ := command_scClr_ok hfit
  rw [flatten_pieces (by decide)] at hpieces
  refine ⟨w, ?_⟩
  rw [streamEncrypt, Proc.andThen_ok hsetup, Proc.andThen_ok (Proc.finally_ok hpieces hclear), Proc.done]

theorem streamDecrypt_ok {s : State} (hs : s.Fit) {key iv : List Byte} (hkey : key.length = 16)
    (hiv : iv.length = 0 ∨ iv.length = 8) (c : List Byte) : ∃ t, streamDecrypt key iv (hexEnc c) s =
      (.ok (onStream s.cfg (initSession s.cfg key (usedIv iv) s.sce) c), t) := by
  obtain ⟨t, hsetup, hready⟩ := streamSetup_ok hs hkey hiv
  obtain ⟨u, hpieces, hfit⟩ := streamPieces_ok hready fun p (hp : p ∈ pieces bufLen c) => length_le_of_mem_pieces hp
  obtain ⟨w, hclear⟩ := command_scClr_ok hfit
  rw [flatten_pieces (by decide)] at hpieces
  have hbody : ((cipherBytes (hexEnc c)).andThen fun c => streamPieces (pieces bufLen c)) t =
      (.ok (onStream s.cfg (initSession s.cfg key (usedIv iv) s.sce) c), u) := by
    simp only [cipherBytes, hexDec_hexEnc]
    rw [Proc.andThen_ok (p := Proc.done c) rfl, hpieces]
  refine ⟨w, ?_⟩
  rw [streamDecrypt, Proc.andThen_ok hsetup, Proc.finally_ok hbody hclear]

/-- Settles O59: both sessions give the same keystream, and combining twice with it restores the bytes. -/
theorem streamProceduresRoundTrip : Obligations.StreamProceduresRoundTrip := by
  intro s s' key iv plaintext hs hs' hcfg hkey hiv
  obtain ⟨t, ht⟩ := streamEncrypt_ok hs.fit hkey hiv plaintext
  obtain ⟨t', ht'⟩ := streamDecrypt_ok hs'.fit hkey hiv
    (onStream s.cfg (initSession s.cfg key (usedIv iv) s.sce) plaintext)
  refine ⟨_, t, t', ht, by rw [hexEnc_length, onStream_length], ?_⟩
  rw [ht', ← hcfg, onStream_congr _ _ _ (streamEq_initSession s.cfg key (usedIv iv) s'.sce s.sce), onStream_onStream]

end Sys2Proof.Machine
